-- ==== Sys2Proof/Word.lean ====
section
/-! DEFINITION. The field types of the instruction word and the one arithmetic reduction of the spec
(00_scope.md R8, R10, R16; 30_encoding.md R60). What the spec calls "an unsigned integer of N bits"
with N a parameter (an address, a register's contents, a key) is a `Nat`; the reductions the spec
writes as `trunc_N` are explicit. -/

namespace Sys2Proof

/-- A byte of storage (20_memory.md R40: 8 bits). -/
abbrev Byte := BitVec 8

/-- The instruction word `I = b1:b2:b3:b4` (00_scope.md R9). -/
abbrev InstrWord := BitVec 32

/-- The mask field `I[23:20]` (30_encoding.md R60). -/
abbrev Mask := BitVec 4

/-- A general register number, 0 to 15 (10_state.md R20; 30_encoding.md R67). -/
abbrev RegNum := BitVec 4

/-- The offset field `I[11:0]`, unsigned (30_encoding.md R65). -/
abbrev Offset := BitVec 12

/-- The condition code: exactly the four values 0, 1, 2, 3 (10_state.md R28). -/
abbrev CondCode := Fin 4

/-- `trunc_N(v)` is `v mod 2^N` (00_scope.md R10). -/
def trunc (n v : Nat) : Nat := v % 2 ^ n

end Sys2Proof
end

