-- ==== Sys2Proof/Machine/Flags.lean ====
section
/-! DEFINITION. The condition code: how BC's mask selects on it, and the value each kind of
instruction the spec names leaves in it (10_state.md R29 to R31). No instruction in scope sets it; the
tables say what a launch `cc` stands for (42_instructions_named_only.md R110). -/

namespace Sys2Proof.Machine

/-- `CCBIT(m, c)` is the bit `m[3 - c]`: the mask's bits, written left to right, stand for the
condition codes 0, 1, 2, 3 (00_scope.md R16; 40_branch_on_condition.md R81). -/
def ccBit (mask : Mask) (cc : CondCode) : Bool := mask.getLsbD (3 - cc.val)

/-- The outcomes of an arithmetic instruction (10_state.md R29). -/
inductive ArithmeticOutcome where
  | zero | negative | positive | overflow
  deriving DecidableEq, Repr

/-- The condition code after an arithmetic instruction: Z 0, N 1, P 2, O 3 (10_state.md R29). -/
def ccAfterArithmetic : ArithmeticOutcome → CondCode
  | .zero => 0
  | .negative => 1
  | .positive => 2
  | .overflow => 3

/-- The outcomes of comparing A, the left operand, with B, the right one (10_state.md R30). -/
inductive ComparisonOutcome where
  | equal | low | high
  deriving DecidableEq, Repr

/-- The outcome of comparing two values as integers: "how A compares to B" (10_state.md R30). Whether
an instruction reads its operands as signed is not in the source
(42_instructions_named_only.md R112), so the operands are the integers themselves. -/
def compareOutcome (a b : Int) : ComparisonOutcome :=
  if a = b then .equal else if a < b then .low else .high

/-- The condition code after a comparison (10_state.md R30). -/
def ccAfterComparison : ComparisonOutcome → CondCode
  | .equal => 0
  | .low => 1
  | .high => 2

/-- The outcomes of a test under mask (10_state.md R31). -/
inductive TestOutcome where
  | allZeroes | mixed | allOnes
  deriving DecidableEq, Repr

/-- The condition code after a test under mask (10_state.md R31). -/
def ccAfterTestUnderMask : TestOutcome → CondCode
  | .allZeroes => 0
  | .mixed => 1
  | .allOnes => 3

end Sys2Proof.Machine
end

