-- ==== Sys2Proof/Config.lean ====
section
/-! DEFINITION. The implementation parameters of 00_scope.md R6, as one record of plain data. The spec
leaves every one of them open and has the launch supply them (70_reset_and_hazards.md R150), so the
record is carried in the state, no step changes it, and a statement over all states is a statement
over all parameter values (log entry 1). -/

namespace Sys2Proof

/-- A total function on addresses as plain data: `first` from address 0 on, and from each listed
address on the value listed with it. Every function on a finite address space is one
(Sys2Proof/Laws/AddressMap.lean), so nothing the spec leaves open is lost. -/
structure AddressMap (α : Type) where
  first : α
  breaks : List (Nat × α)
  deriving DecidableEq, Repr

/-- What a base-register field of 0 means: `BASE0_MODE` (00_scope.md R6; 90_conflicts.md C8). -/
inductive Base0Mode where
  /-- BC is a no-operation: the source's rule and the spec's setting (40_branch_on_condition.md R84). -/
  | sourceNoop
  /-- The field contributes 0 to the sum: the alternative setting (40_branch_on_condition.md R86). -/
  | zeroBase
  deriving DecidableEq, Repr

/-- The parameters of 00_scope.md R6. -/
structure Config where
  /-- `ADDR_BITS`, the width of an address. -/
  addrBits : Nat
  /-- `GR_BITS`, the width of a general register. -/
  grBits : Nat
  /-- `KEY_BITS`, the width of a storage key and of the process key. -/
  keyBits : Nat
  /-- `Valid(a)`: address `a` is within the range of valid memory. -/
  valid : AddressMap Bool
  /-- `PROTECT_FETCH`: whether the storage-key check is made at all. -/
  protectFetch : Bool
  /-- `BASE0_MODE`. -/
  base0Mode : Base0Mode
  /-- `IsExit(a)`: the run ends when `pc = a`. -/
  isExit : AddressMap Bool
  deriving DecidableEq, Repr

/-- The parameters `State.reset` carries. The widths are the System/360's (PRESUMED, log entry 2:
GK2, GK3, GK6); every address is valid and none is an exit (DESIGN CHOICE, log entry 2); the two
switches are the spec's settings (R6). -/
def Config.system360 : Config where
  addrBits := 24
  grBits := 32
  keyBits := 4
  valid := ⟨true, []⟩
  protectFetch := true
  base0Mode := .sourceNoop
  isExit := ⟨false, []⟩

/-- What a byte of storage that is not listed reads as (DESIGN CHOICE, log entry 5). -/
def Config.unlistedByte : Byte := 0

end Sys2Proof
end

