-- ==== Sys2Proof/Machine/State.lean ====
section
/-! DEFINITION. The state of the machine as plain data (10_state.md), the reasons a step can stop
(60_exceptions.md R130, R136), and the state after reset (log entries 2 to 5). -/

namespace Sys2Proof.Machine

/-- The Program Status Word as the record of the three pieces the spec gives it (10_state.md R24). -/
structure Psw where
  /-- The address of the current instruction, `ADDR_BITS` wide (R25). -/
  pc : Nat
  /-- The condition code (R28). -/
  cc : CondCode
  /-- The key of the current process, `KEY_BITS` wide (R34). -/
  key : Nat
  deriving DecidableEq, Repr

/-- Storage `M[a]`: the listed cells, addresses strictly rising, none equal to what an unlisted
address reads as. -/
abbrev Memory := List Host.Cell

/-- Everything the spec gives the machine (10_state.md, the opening table; R36), with the parameters
the launch supplies beside it (70_reset_and_hazards.md R150). -/
structure State where
  /-- General registers `x[0]` to `x[15]`, `GR_BITS` wide each (R20, R21). -/
  regs : Vector Nat 16
  /-- The registers to which the launch state gives no value (R23, R36); none after reset (log entry 4). -/
  noValue : List RegNum
  /-- The PSW: `pc`, `cc`, `key` (R24). -/
  psw : Psw
  /-- Storage bytes `M[a]` (20_memory.md R40). -/
  mem : Memory
  /-- Storage keys `K(a)`, `KEY_BITS` wide (R35). -/
  storageKeys : AddressMap Nat
  /-- The parameters of the step (00_scope.md R6). -/
  cfg : Config
  deriving DecidableEq, Repr

/-- What a failed check is recorded against (60_exceptions.md R131, R136). -/
inductive Access where
  /-- The target of a branch that is about to be taken. -/
  | branch
  /-- The fetch of the instruction at `pc`. -/
  | fetch
  deriving DecidableEq, Repr

/-- The two causes of the exception the source calls "operation exception" (60_exceptions.md R130). -/
inductive AddressCause where
  /-- The address is odd (R131). -/
  | oddTarget
  /-- The address is not within the range of valid memory (R132). -/
  | invalidTarget
  deriving DecidableEq, Repr

/-- The faults. Each is terminal (60_exceptions.md R135) and leaves the state as it was before the
instruction. All are safe: the hardware may go on in a handler, and nothing is proved about that
(log entry 6). -/
inductive Fault where
  /-- Raised by a BC about to branch, or against a fetch, for an odd or an invalid address `t`
  (R131, R132, R136); `pc` is the address of the instruction. Safe. -/
  | operationException (cause : AddressCause) (against : Access) (pc t : Nat)
  /-- Raised by a BC about to branch, or against a fetch, when the key of `t` differs from the
  process's key and that key is not 0 (R133, R136). Safe. -/
  | memoryProtectException (against : Access) (pc t keyOfT processKey : Nat)
  /-- Raised by a BC about to branch that reads a register to which the launch state gave no value
  (10_state.md R23; 60_exceptions.md R136). Unreachable from reset. Safe. -/
  | unwrittenRegister (r : RegNum)
  deriving DecidableEq, Repr

/-- The refusals. -/
inductive Refusal where
  /-- An instruction that has no meaning yet; no arm answers it. Safe. -/
  | notModelled (mnemonic : String)
  /-- Answered by `step` when the byte at `pc` is not 0x47 (30_encoding.md R70). Safe. -/
  | opcodeOutOfScope (b1 : Byte)
  deriving DecidableEq, Repr

/-- The outcome of a step (00_scope.md R15). -/
abbrev Outcome := Host.Outcome State Fault Refusal

/-- The machine after reset. The spec gives no reset value for anything (10_state.md R36), so every
value here is the model's: all registers, `pc`, `cc`, `key` and storage keys 0, no storage listed
(PRESUMED, the family's clear reset, log entry 3). -/
def State.reset : State where
  regs := Vector.replicate 16 0
  noValue := []
  psw := ⟨0, 0, 0⟩
  mem := []
  storageKeys := ⟨0, []⟩
  cfg := Config.system360

end Sys2Proof.Machine
end

