-- ==== Sys2Proof/Machine/Ops.lean ====
section
/-! DEFINITION. The named operations over storage, keys, registers and the PSW, the checks an address
must pass, and raising an exception. -/

namespace Sys2Proof.Machine

/-! ### Functions on addresses -/

/-- The value at address `a` of a map that holds `v` until the next listed address. -/
def valueFrom {α : Type} (v : α) : List (Nat × α) → Nat → α
  | [], _ => v
  | (start, w) :: rest, a => if a < start then v else valueFrom w rest a

/-- The value of an address map at `a`. -/
def mapAt {α : Type} (m : AddressMap α) (a : Nat) : α := valueFrom m.first m.breaks a

/-- `Valid(a)` (20_memory.md R49). -/
def validAt (s : State) (a : Nat) : Bool := mapAt s.cfg.valid a

/-- The storage key `K(a)` (10_state.md R35). -/
def keyAt (s : State) (a : Nat) : Nat := mapAt s.storageKeys a

/-- `IsExit(a)` (70_reset_and_hazards.md R156). -/
def exitAt (s : State) (a : Nat) : Bool := mapAt s.cfg.isExit a

/-! ### Storage -/

/-- The byte `M[a]`. -/
def readByte : Memory → Nat → Byte
  | [], _ => Config.unlistedByte
  | (b, v) :: rest, a => if b = a then v else readByte rest a

/-- `M[a] <- v`, keeping the canonical form. -/
def writeByte : Memory → Nat → Byte → Memory
  | [], a, v => if v = Config.unlistedByte then [] else [(a, v)]
  | (b, w) :: rest, a, v =>
    if a < b then
      if v = Config.unlistedByte then (b, w) :: rest else (a, v) :: (b, w) :: rest
    else if a = b then
      if v = Config.unlistedByte then rest else (a, v) :: rest
    else (b, w) :: writeByte rest a v

/-- Addresses strictly rising from `lo` on, and no entry equal to what an unlisted address reads as. -/
def Memory.wfFrom (lo : Nat) : Memory → Bool
  | [] => true
  | (a, v) :: rest => decide (lo ≤ a) && decide (v ≠ Config.unlistedByte) && Memory.wfFrom (a + 1) rest

/-- The canonical form of storage. -/
def Memory.wf (m : Memory) : Bool := Memory.wfFrom 0 m

/-- `MemRead(a, n)`: `M[a], M[a+1 mod 2^ADDR_BITS], ...` in that order (00_scope.md R13). -/
def memRead (addrBits : Nat) (m : Memory) (a : Nat) : Nat → List Byte
  | 0 => []
  | n + 1 => readByte m a :: memRead addrBits m (trunc addrBits (a + 1)) n

/-- `MemWrite`: the store of bytes at `a`, `a+1 mod 2^ADDR_BITS`, ... No instruction in scope stores
(00_scope.md R13; 20_memory.md R42); the host's placing of a program uses it. -/
def memWrite (addrBits : Nat) (m : Memory) (a : Nat) : List Byte → Memory
  | [] => m
  | v :: rest => memWrite addrBits (writeByte m a v) (trunc addrBits (a + 1)) rest

/-! ### Registers and PSW -/

/-- The contents of `x[r]`. -/
def regAt (s : State) (r : RegNum) : Nat := s.regs[r.toNat]'r.isLt

/-- Reading `x[r]`: nothing if the launch state gave it no value (10_state.md R23). -/
def readReg (s : State) (r : RegNum) : Option Nat :=
  if s.noValue.contains r then none else some (regAt s r)

/-- `x[r] <- v`, which gives the register a value of `GR_BITS` bits. No instruction in scope writes a
general register (00_scope.md R11); a launch does. R11 states no reduction: that a `v` of more than
`GR_BITS` bits is reduced modulo `2^GR_BITS` is the model's choice (DESIGN CHOICE, log entry 20). -/
def writeReg (s : State) (r : RegNum) (v : Nat) : State :=
  { s with
    regs := s.regs.set r.toNat (trunc s.cfg.grBits v) r.isLt
    noValue := s.noValue.filter (fun q => q != r) }

/-- `pc <- t` (00_scope.md R12). -/
def setPc (s : State) (t : Nat) : State := { s with psw := { s.psw with pc := t } }

/-- The address of "the next instruction following": `trunc_ADDR_BITS(pc + 4)` (10_state.md R26). -/
def nextAddress (s : State) : Nat := trunc s.cfg.addrBits (s.psw.pc + 4)

/-! ### Checks and exceptions -/

/-- `KeyOK(a) := (key = 0) or (K(a) = key)` (20_memory.md R50). -/
def keyOK (s : State) (a : Nat) : Bool := s.psw.key == 0 || keyAt s a == s.psw.key

/-- The first failing check, in the order odd, invalid, key (60_exceptions.md R134): `a` must be even,
and each of `addresses` valid and, if `PROTECT_FETCH`, of a matching key. A branch checks its one
target (20_memory.md R49, R51); a fetch checks `pc` for evenness and all four of its addresses, and
records the first address that fails (log entry 7). -/
def checkAddresses (s : State) (against : Access) (a : Nat) (addresses : List Nat) : Option Fault :=
  if a % 2 = 1 then
    some (.operationException .oddTarget against s.psw.pc a)
  else
    match addresses.find? (fun x => !validAt s x) with
    | some bad => some (.operationException .invalidTarget against s.psw.pc bad)
    | none =>
      match addresses.find? (fun x => s.cfg.protectFetch && !keyOK s x) with
      | some bad => some (.memoryProtectException against s.psw.pc bad (keyAt s bad) s.psw.key)
      | none => none

/-- `raise E(info)`: the one way an exception is taken. It ends the instruction "without any further
state change" in the terminal fault outcome (00_scope.md R14; 60_exceptions.md R135). The spec gives
no saved PSW, no new status and no handler address, and no return from an exception (R137). -/
def raise (f : Fault) : Outcome := .fault f

end Sys2Proof.Machine
end

