-- ==== Sys2Proof/Machine/Operands.lean ====
section
/-! DEFINITION. The operand form of BC: the target address `offset(idx,base)` (30_encoding.md R65 to
R67, 40_branch_on_condition.md R80, R82, R86). -/

namespace Sys2Proof.Machine

/-- The value a register field contributes to the sum: the field value 0 names no register and
contributes 0; any other value reads that register, which faults if it holds no value
(40_branch_on_condition.md R80, R86). -/
def registerOperand (s : State) (r : RegNum) : Except Fault Nat :=
  if r = 0 then .ok 0
  else
    match readReg s r with
    | some v => .ok v
    | none => .error (.unwrittenRegister r)

/-- The target address as a function of the base value, the index value and the offset: the sum of
the truncated register values and the zero-extended offset, reduced modulo `2^ADDR_BITS`
(30_encoding.md R65, R66). -/
def targetAddress (addrBits baseValue indexValue : Nat) (offset : Offset) : Nat :=
  trunc addrBits (trunc addrBits baseValue + trunc addrBits indexValue + offset.toNat)

/-- Forming the target address, the base register read first (40_branch_on_condition.md R80). -/
def formTarget (s : State) (idx base : RegNum) (offset : Offset) : Except Fault Nat :=
  match registerOperand s base with
  | .error f => .error f
  | .ok baseValue =>
    match registerOperand s idx with
    | .error f => .error f
    | .ok indexValue => .ok (targetAddress s.cfg.addrBits baseValue indexValue offset)

end Sys2Proof.Machine
end

