-- ==== Sys2Proof/Syntax.lean ====
section
/-! DEFINITION. The instructions: one constructor per row of spec/opcode_table.json. `bc` is the one
machine instruction; the other sixteen are the extended mnemonics, assembler spellings of `bc` with a
fixed mask (30_encoding.md R68, 41_extended_mnemonics.md R90). The decoder answers only `bc`.
The arguments stand in the order of the fields in the word: mask, index register, base register,
offset (30_encoding.md R60, R61). Every term is well formed: the field types are exactly the field
ranges, and no field value is reserved (R62, R69). -/

namespace Sys2Proof

inductive Instr where
  /-- Branch on Condition, 0x47 (40_branch_on_condition.md R80). -/
  | bc (mask : Mask) (idx base : RegNum) (offset : Offset)
  /-- No Operation, mask 0 (41_extended_mnemonics.md R91). -/
  | nop (idx base : RegNum) (offset : Offset)
  /-- Branch on Overflow/Ones, mask 1 (R92). -/
  | bo (idx base : RegNum) (offset : Offset)
  /-- Branch (a High), mask 2 (R93). -/
  | bh (idx base : RegNum) (offset : Offset)
  /-- Branch on Plus, mask 2 (R94). -/
  | bp (idx base : RegNum) (offset : Offset)
  /-- Branch (a Low), mask 4 (R95). -/
  | bl (idx base : RegNum) (offset : Offset)
  /-- Branch on Minus/Mixed, mask 4 (R96). -/
  | bm (idx base : RegNum) (offset : Offset)
  /-- Branch Not Equal, mask 7 (R97). -/
  | bne (idx base : RegNum) (offset : Offset)
  /-- Branch Not Zero, mask 7 (R98). -/
  | bnz (idx base : RegNum) (offset : Offset)
  /-- Branch (a Equal b), mask 8 (R99). -/
  | be (idx base : RegNum) (offset : Offset)
  /-- Branch on Zero, mask 8 (R100). -/
  | bz (idx base : RegNum) (offset : Offset)
  /-- Branch (a Not Low), mask 11 (R101). -/
  | bnl (idx base : RegNum) (offset : Offset)
  /-- Branch Not Minus, mask 11 (R102). -/
  | bnm (idx base : RegNum) (offset : Offset)
  /-- Branch Not High, mask 13 (R103). -/
  | bnh (idx base : RegNum) (offset : Offset)
  /-- Branch Not Plus, mask 13 (R104). -/
  | bnp (idx base : RegNum) (offset : Offset)
  /-- Branch Not Ones, mask 14 (R105). -/
  | bno (idx base : RegNum) (offset : Offset)
  /-- Branch (unconditional), mask 15 (R106). -/
  | b (idx base : RegNum) (offset : Offset)
  deriving DecidableEq, Repr

end Sys2Proof
end

