-- ==== Sys2Proof/Machine/Branch.lean ====
section
/-! DEFINITION. The meaning of BC (40_branch_on_condition.md R80, R86) and of its sixteen extended
mnemonics (41_extended_mnemonics.md). -/

namespace Sys2Proof.Machine

/-- Whether BC is about to take its branch: the mask bit that stands for the condition code is 1, and
a base field of 0 does not stop it (R80, R84); under the alternative setting it never does (R86). -/
def branchSelected (s : State) (mask : Mask) (base : RegNum) : Bool :=
  ccBit mask s.psw.cc && (s.cfg.base0Mode == .zeroBase || base != 0)

/-- A branch about to be taken: form the target, check it, and go there (R80, R87). -/
def takeBranch (s : State) (idx base : RegNum) (offset : Offset) : Outcome :=
  match formTarget s idx base offset with
  | .error f => raise f
  | .ok t =>
    match checkAddresses s .branch t [t] with
    | some f => raise f
    | none => .next (setPc s t)

/-- A no-operation: no address is formed, no register read and nothing checked (R84). -/
def noOperation (s : State) : Outcome := .next (setPc s (nextAddress s))

/-- Branch on Condition (R80). -/
def branchOnCondition (mask : Mask) (idx base : RegNum) (offset : Offset) (s : State) : Outcome :=
  if branchSelected s mask base then takeBranch s idx base offset else noOperation s

/-- BC (40_branch_on_condition.md R80). -/
def execBc (mask : Mask) (idx base : RegNum) (offset : Offset) (s : State) : Outcome :=
  branchOnCondition mask idx base offset s

/-- NOP is `BC 0,target` (41_extended_mnemonics.md R91). -/
def execNop (idx base : RegNum) (offset : Offset) (s : State) : Outcome :=
  branchOnCondition 0 idx base offset s

/-- BO is `BC 1,target` (R92). -/
def execBo (idx base : RegNum) (offset : Offset) (s : State) : Outcome :=
  branchOnCondition 1 idx base offset s

/-- BH is `BC 2,target` (R93). -/
def execBh (idx base : RegNum) (offset : Offset) (s : State) : Outcome :=
  branchOnCondition 2 idx base offset s

/-- BP is `BC 2,target` (R94). -/
def execBp (idx base : RegNum) (offset : Offset) (s : State) : Outcome :=
  branchOnCondition 2 idx base offset s

/-- BL is `BC 4,target` (R95). -/
def execBl (idx base : RegNum) (offset : Offset) (s : State) : Outcome :=
  branchOnCondition 4 idx base offset s

/-- BM is `BC 4,target` (R96). -/
def execBm (idx base : RegNum) (offset : Offset) (s : State) : Outcome :=
  branchOnCondition 4 idx base offset s

/-- BNE is `BC 7,target` (R97). -/
def execBne (idx base : RegNum) (offset : Offset) (s : State) : Outcome :=
  branchOnCondition 7 idx base offset s

/-- BNZ is `BC 7,target` (R98). -/
def execBnz (idx base : RegNum) (offset : Offset) (s : State) : Outcome :=
  branchOnCondition 7 idx base offset s

/-- BE is `BC 8,target` (R99). -/
def execBe (idx base : RegNum) (offset : Offset) (s : State) : Outcome :=
  branchOnCondition 8 idx base offset s

/-- BZ is `BC 8,target` (R100). -/
def execBz (idx base : RegNum) (offset : Offset) (s : State) : Outcome :=
  branchOnCondition 8 idx base offset s

/-- BNL is `BC 11,target` (R101; 90_conflicts.md C2). -/
def execBnl (idx base : RegNum) (offset : Offset) (s : State) : Outcome :=
  branchOnCondition 11 idx base offset s

/-- BNM is `BC 11,target` (R102; 90_conflicts.md C3). -/
def execBnm (idx base : RegNum) (offset : Offset) (s : State) : Outcome :=
  branchOnCondition 11 idx base offset s

/-- BNH is `BC 13,target` (R103). -/
def execBnh (idx base : RegNum) (offset : Offset) (s : State) : Outcome :=
  branchOnCondition 13 idx base offset s

/-- BNP is `BC 13,target` (R104). -/
def execBnp (idx base : RegNum) (offset : Offset) (s : State) : Outcome :=
  branchOnCondition 13 idx base offset s

/-- BNO is `BC 14,target` (R105). -/
def execBno (idx base : RegNum) (offset : Offset) (s : State) : Outcome :=
  branchOnCondition 14 idx base offset s

/-- B is `BC 15,target` (R106; 90_conflicts.md C1). -/
def execB (idx base : RegNum) (offset : Offset) (s : State) : Outcome :=
  branchOnCondition 15 idx base offset s

end Sys2Proof.Machine
end

