-- ==== Sys2Proof/Machine/Dispatch.lean ====
section
/-! DEFINITION. One arm per constructor of `Instr`, each one call of its meaning. -/

namespace Sys2Proof.Machine

def exec (i : Instr) (s : State) : Host.Outcome State Fault Refusal :=
  match i with
  | .bc mask idx base offset => Sys2Proof.Machine.execBc mask idx base offset s
  | .nop idx base offset => Sys2Proof.Machine.execNop idx base offset s
  | .bo idx base offset => Sys2Proof.Machine.execBo idx base offset s
  | .bh idx base offset => Sys2Proof.Machine.execBh idx base offset s
  | .bp idx base offset => Sys2Proof.Machine.execBp idx base offset s
  | .bl idx base offset => Sys2Proof.Machine.execBl idx base offset s
  | .bm idx base offset => Sys2Proof.Machine.execBm idx base offset s
  | .bne idx base offset => Sys2Proof.Machine.execBne idx base offset s
  | .bnz idx base offset => Sys2Proof.Machine.execBnz idx base offset s
  | .be idx base offset => Sys2Proof.Machine.execBe idx base offset s
  | .bz idx base offset => Sys2Proof.Machine.execBz idx base offset s
  | .bnl idx base offset => Sys2Proof.Machine.execBnl idx base offset s
  | .bnm idx base offset => Sys2Proof.Machine.execBnm idx base offset s
  | .bnh idx base offset => Sys2Proof.Machine.execBnh idx base offset s
  | .bnp idx base offset => Sys2Proof.Machine.execBnp idx base offset s
  | .bno idx base offset => Sys2Proof.Machine.execBno idx base offset s
  | .b idx base offset => Sys2Proof.Machine.execB idx base offset s

end Sys2Proof.Machine
end

