-- ==== Sys2Proof/Decode.lean ====
section
/-! DEFINITION. Decoding and encoding (30_encoding.md R60, R64, R68 to R70). -/

namespace Sys2Proof

/-- What a decoder makes of an instruction word. -/
inductive Decoded where
  /-- An instruction. -/
  | instr (i : Instr)
  /-- The first byte is not 0x47: outside the spec, named by that byte (30_encoding.md R70). -/
  | opcodeOutOfScope (b1 : Byte)
  deriving DecidableEq, Repr

/-- What a decoder makes of a list of bytes. -/
inductive DecodedBytes where
  /-- The first four bytes were read; `rest` follows them. -/
  | done (d : Decoded) (rest : List Byte)
  /-- Fewer than the four bytes of an instruction (R63). -/
  | truncated (available : Nat)
  deriving DecidableEq, Repr

/-- `I = b1 * 2^24 + b2 * 2^16 + b3 * 2^8 + b4`: the byte at the lowest address is the most
significant (00_scope.md R9; 20_memory.md R43, R44). -/
def wordOfBytes (bytes : List Byte) : InstrWord :=
  BitVec.ofNat 32 (bytes.foldl (fun n byte => n * 256 + byte.toNat) 0)

/-- The four bytes of an instruction word, the most significant first (20_memory.md R43). -/
def bytesOfWord (w : InstrWord) : List Byte :=
  [w.extractLsb' 24 8, w.extractLsb' 16 8, w.extractLsb' 8 8, w.extractLsb' 0 8]

/-- `decode(I)` of 30_encoding.md R64: every word whose first byte is 0x47 is a BC (R68, R69). -/
def decodeWord (w : InstrWord) : Decoded :=
  if w.extractLsb' 24 8 = 0x47#8 then
    .instr (.bc (w.extractLsb' 20 4) (w.extractLsb' 16 4) (w.extractLsb' 12 4) (w.extractLsb' 0 12))
  else
    .opcodeOutOfScope (w.extractLsb' 24 8)

/-- Decoding any list of bytes: an instruction is its first four bytes (R63). -/
def decode : List Byte → DecodedBytes
  | b1 :: b2 :: b3 :: b4 :: rest => .done (decodeWord (wordOfBytes [b1, b2, b3, b4])) rest
  | short => .truncated short.length

/-- The BC an instruction stands for: itself, or the expansion of the extended mnemonic
(41_extended_mnemonics.md R90 and the "Expansion" of R91 to R106). -/
def expand : Instr → Instr
  | .bc mask idx base offset => .bc mask idx base offset
  | .nop idx base offset => .bc 0 idx base offset
  | .bo idx base offset => .bc 1 idx base offset
  | .bh idx base offset => .bc 2 idx base offset
  | .bp idx base offset => .bc 2 idx base offset
  | .bl idx base offset => .bc 4 idx base offset
  | .bm idx base offset => .bc 4 idx base offset
  | .bne idx base offset => .bc 7 idx base offset
  | .bnz idx base offset => .bc 7 idx base offset
  | .be idx base offset => .bc 8 idx base offset
  | .bz idx base offset => .bc 8 idx base offset
  | .bnl idx base offset => .bc 11 idx base offset
  | .bnm idx base offset => .bc 11 idx base offset
  | .bnh idx base offset => .bc 13 idx base offset
  | .bnp idx base offset => .bc 13 idx base offset
  | .bno idx base offset => .bc 14 idx base offset
  | .b idx base offset => .bc 15 idx base offset

/-- `I = 0x47 : mask : idx : base : offset` (40_branch_on_condition.md R80, *Encoding*). -/
def encodeFields (mask : Mask) (idx base : RegNum) (offset : Offset) : InstrWord :=
  0x47#8 ++ mask ++ idx ++ base ++ offset

/-- The instruction word of an instruction: "exactly the bytes of `BC m,target`" for an extended
mnemonic, whose mask is the fixed digit of its row (30_encoding.md R64; 41_extended_mnemonics.md
R90, *Encoding* of R91 to R106). -/
def encode : Instr → InstrWord
  | .bc mask idx base offset => encodeFields mask idx base offset
  | .nop idx base offset => encodeFields 0x0 idx base offset
  | .bo idx base offset => encodeFields 0x1 idx base offset
  | .bh idx base offset => encodeFields 0x2 idx base offset
  | .bp idx base offset => encodeFields 0x2 idx base offset
  | .bl idx base offset => encodeFields 0x4 idx base offset
  | .bm idx base offset => encodeFields 0x4 idx base offset
  | .bne idx base offset => encodeFields 0x7 idx base offset
  | .bnz idx base offset => encodeFields 0x7 idx base offset
  | .be idx base offset => encodeFields 0x8 idx base offset
  | .bz idx base offset => encodeFields 0x8 idx base offset
  | .bnl idx base offset => encodeFields 0xB idx base offset
  | .bnm idx base offset => encodeFields 0xB idx base offset
  | .bnh idx base offset => encodeFields 0xD idx base offset
  | .bnp idx base offset => encodeFields 0xD idx base offset
  | .bno idx base offset => encodeFields 0xE idx base offset
  | .b idx base offset => encodeFields 0xF idx base offset

/-- The bytes of an instruction in storage order. -/
def encodeBytes (i : Instr) : List Byte := bytesOfWord (encode i)

/-- The bytes that spec/opcode_table.json's numbering gives an instruction whose low `nbits` bits are
`w`: its one word is 32 bits with bit 31 the most significant bit of the first byte, and bits from
`nbits` up are 0. -/
def tableBytes (nbits w : Nat) : List Byte := bytesOfWord (BitVec.ofNat 32 (w % 2 ^ nbits))

/-- The instruction `decode` reads from a word in the opcode table's numbering. -/
def decodeTableWord (nbits w : Nat) : Option Instr :=
  match decode (tableBytes nbits w) with
  | .done (.instr i) _ => some i
  | .done (.opcodeOutOfScope _) _ => none
  | .truncated _ => none

end Sys2Proof
end

