-- ==== Sys2Proof/Machine/Fetch.lean ====
section
/-! DEFINITION. Instruction fetch (20_memory.md R43, R45, R49, R51; 60_exceptions.md R136), and the
placing of an instruction where the fetch finds it. -/

namespace Sys2Proof.Machine

/-- The four addresses of the fetch at `pc`: `pc, pc+1, pc+2, pc+3 (mod 2^ADDR_BITS)` (20_memory.md R49). -/
def fetchAddresses (s : State) : List Nat :=
  [s.psw.pc, trunc s.cfg.addrBits (s.psw.pc + 1), trunc s.cfg.addrBits (s.psw.pc + 2),
    trunc s.cfg.addrBits (s.psw.pc + 3)]

/-- The check of the fetch at `pc`: the same conditions as for a branch target, made on all four
addresses, before any byte is used (20_memory.md R45, R49, R51). -/
def fetchFault (s : State) : Option Fault := checkAddresses s .fetch s.psw.pc (fetchAddresses s)

/-- The fetch: `I = b1:b2:b3:b4` from `MemRead(pc, 4)`, or the fault recorded against it
(20_memory.md R43). It changes no state (R47). -/
def fetch (s : State) : Except Fault InstrWord :=
  match fetchFault s with
  | some f => .error f
  | none => .ok (wordOfBytes (memRead s.cfg.addrBits s.mem s.psw.pc 4))

/-- Four bytes stored where the next fetch reads them. -/
def placeAtPc (s : State) (bytes : List Byte) : State :=
  { s with mem := memWrite s.cfg.addrBits s.mem s.psw.pc bytes }

end Sys2Proof.Machine
end

