-- ==== Sys2Proof/Machine/Step.lean ====
section
/-! DEFINITION. One step: fetch, decode, execute (00_scope.md R15; 20_memory.md R43, R52). -/

namespace Sys2Proof.Machine

/-- One step of the machine. A first byte other than 0x47 is refused by that byte (30_encoding.md R70). -/
def step (s : State) : Host.Outcome State Fault Refusal :=
  match fetch s with
  | .error f => raise f
  | .ok w =>
    match decodeWord w with
    | .instr i => exec i s
    | .opcodeOutOfScope b1 => .refused (.opcodeOutOfScope b1)

/-- `s` with the instruction whose bits are `w` in the opcode table's numbering stored at `pc`. -/
def State.withFetchWord (s : State) (nbits w : Nat) : State := placeAtPc s (tableBytes nbits w)

end Sys2Proof.Machine
end

