-- ==== Sys2Proof/WellFormed.lean ====
section
/-! DEFINITION. The assembler's source statements of BC, whose operands are plain decimal numbers, and
the range checks that make one well formed (30_encoding.md R62, R72 to R76). An `Instr` needs no
check: its field types are the ranges. -/

namespace Sys2Proof

/-- The sixteen extended mnemonics (41_extended_mnemonics.md R91 to R106). -/
inductive Mnemonic where
  | nop | bo | bh | bp | bl | bm | bne | bnz | be | bz | bnl | bnm | bnh | bnp | bno | b
  deriving DecidableEq, Repr

/-- An operand `offset(idx,base)` as written, in decimal: the index register comes first
(30_encoding.md R72; 90_conflicts.md C6). -/
structure Operand where
  offset : Nat
  idx : Nat
  base : Nat
  deriving DecidableEq, Repr

/-- The forms in which the source writes a branch target. -/
inductive TargetForm where
  /-- `offset(idx,base)` (R72). -/
  | explicit (op : Operand)
  /-- `offset(v)`, the one-value form of `NOP 0(0)` (R76). -/
  | single (offset v : Nat)
  /-- A label (R73). -/
  | label (name : List Char)
  deriving DecidableEq, Repr

/-- A source statement that assembles to BC. -/
inductive Statement where
  /-- `BC mask,target` (R72, R73). -/
  | bc (mask : Nat) (target : TargetForm)
  /-- `<mnemonic> target` (R75). -/
  | ext (mnemonic : Mnemonic) (target : TargetForm)
  deriving DecidableEq, Repr

/-- "The mask, base_register and index_register values are 0 to 15. The offset value is 0 to 4095"
(30_encoding.md R62), for an operand. -/
def Operand.wellFormed (op : Operand) : Bool :=
  decide (op.offset ≤ 4095) && decide (op.idx ≤ 15) && decide (op.base ≤ 15)

/-- A target form is in range. A label is checked when it is resolved; the one-value form has a
settled meaning only for the value 0 (R76, 92_eei_decisions.md D21). -/
def TargetForm.wellFormed : TargetForm → Bool
  | .explicit op => op.wellFormed
  | .single offset v => decide (offset ≤ 4095) && decide (v = 0)
  | .label _ => true

/-- A statement is in range (R62). -/
def Statement.wellFormed : Statement → Bool
  | .bc mask t => decide (mask ≤ 15) && t.wellFormed
  | .ext _ t => t.wellFormed

end Sys2Proof
end

