-- ==== Sys2Proof/Machine/Assembler.lean ====
section
/-! DEFINITION. The assembler as far as the spec gives it: from a source statement to the instruction
and its bytes (30_encoding.md R72 to R76; 41_extended_mnemonics.md R90). -/

namespace Sys2Proof.Machine

/-- The assembler's labels, each with the operand it resolves to (30_encoding.md R73: LABEL is
`106(0,10)`, X1 is `256(7,6)`). -/
abbrev Symbols := List (List Char × Operand)

/-- The mask a mnemonic supplies (41_extended_mnemonics.md, summary table). -/
def maskOf : Mnemonic → Nat
  | .nop => 0
  | .bo => 1
  | .bh => 2
  | .bp => 2
  | .bl => 4
  | .bm => 4
  | .bne => 7
  | .bnz => 7
  | .be => 8
  | .bz => 8
  | .bnl => 11
  | .bnm => 11
  | .bnh => 13
  | .bnp => 13
  | .bno => 14
  | .b => 15

/-- The instruction a mnemonic spells. -/
def instrOf : Mnemonic → RegNum → RegNum → Offset → Instr
  | .nop => .nop
  | .bo => .bo
  | .bh => .bh
  | .bp => .bp
  | .bl => .bl
  | .bm => .bm
  | .bne => .bne
  | .bnz => .bnz
  | .be => .be
  | .bz => .bz
  | .bnl => .bnl
  | .bnm => .bnm
  | .bnh => .bnh
  | .bnp => .bnp
  | .bno => .bno
  | .b => .b

/-- A mnemonic a printer may choose for a BC of this mask (41_extended_mnemonics.md R90; which of two
is log entry 8); the masks 3, 5, 6, 9, 10 and 12 have none (R107). -/
def mnemonicFor (mask : Mask) : Option Mnemonic :=
  [.nop, .bo, .bh, .bl, .bne, .be, .bnl, .bnh, .bno, .b].find? (fun m => maskOf m == mask.toNat)

/-- The operand a target form stands for: the assembler "replaces the label by `offset(idx,base)`
values" (R73); the one-value form `offset(0)` leaves both register fields 0 (R76). Nothing is settled
for another single value. -/
def resolveTarget (symbols : Symbols) : TargetForm → Option Operand
  | .explicit op => some op
  | .single offset v => if v = 0 then some ⟨offset, 0, 0⟩ else none
  | .label name => symbols.lookup name

/-- USING: with the value of each base register known, a label at an address within 4096 bytes above
one of them is that register and the distance (R73, R74; 70_reset_and_hazards.md R153: the base is one
of the registers 1 to 15). Which register is taken, where several serve, is log entry 8. -/
def usingOperand : List (RegNum × Nat) → Nat → Option Operand
  | [], _ => none
  | (r, v) :: rest, address =>
    if r ≠ 0 ∧ v ≤ address ∧ address - v ≤ 4095 then some ⟨address - v, 0, r.toNat⟩
    else usingOperand rest address

/-- The assembler's symbols from the addresses of its labels (R73): a label no base register reaches
resolves to nothing. -/
def symbolsUsing (bases : List (RegNum × Nat)) : List (List Char × Nat) → Symbols
  | [] => []
  | (name, address) :: rest =>
    match usingOperand bases address with
    | some op => (name, op) :: symbolsUsing bases rest
    | none => symbolsUsing bases rest

/-- The instruction a statement assembles to; nothing if an operand is out of range (R62) or a target
does not resolve. -/
def assemble (symbols : Symbols) : Statement → Option Instr
  | .bc mask target =>
    match resolveTarget symbols target with
    | none => none
    | some op =>
      if mask ≤ 15 ∧ op.wellFormed then
        some (.bc (.ofNat 4 mask) (.ofNat 4 op.idx) (.ofNat 4 op.base) (.ofNat 12 op.offset))
      else none
  | .ext mnemonic target =>
    match resolveTarget symbols target with
    | none => none
    | some op =>
      if op.wellFormed then
        some (instrOf mnemonic (.ofNat 4 op.idx) (.ofNat 4 op.base) (.ofNat 12 op.offset))
      else none

/-- The bytes a statement assembles to. -/
def assembleBytes (symbols : Symbols) (st : Statement) : Option (List Byte) :=
  (assemble symbols st).map encodeBytes

/-- The statement that spells an instruction with an explicit operand. -/
def disassemble : Instr → Statement
  | .bc mask idx base offset => .bc mask.toNat (.explicit ⟨offset.toNat, idx.toNat, base.toNat⟩)
  | .nop idx base offset => .ext .nop (.explicit ⟨offset.toNat, idx.toNat, base.toNat⟩)
  | .bo idx base offset => .ext .bo (.explicit ⟨offset.toNat, idx.toNat, base.toNat⟩)
  | .bh idx base offset => .ext .bh (.explicit ⟨offset.toNat, idx.toNat, base.toNat⟩)
  | .bp idx base offset => .ext .bp (.explicit ⟨offset.toNat, idx.toNat, base.toNat⟩)
  | .bl idx base offset => .ext .bl (.explicit ⟨offset.toNat, idx.toNat, base.toNat⟩)
  | .bm idx base offset => .ext .bm (.explicit ⟨offset.toNat, idx.toNat, base.toNat⟩)
  | .bne idx base offset => .ext .bne (.explicit ⟨offset.toNat, idx.toNat, base.toNat⟩)
  | .bnz idx base offset => .ext .bnz (.explicit ⟨offset.toNat, idx.toNat, base.toNat⟩)
  | .be idx base offset => .ext .be (.explicit ⟨offset.toNat, idx.toNat, base.toNat⟩)
  | .bz idx base offset => .ext .bz (.explicit ⟨offset.toNat, idx.toNat, base.toNat⟩)
  | .bnl idx base offset => .ext .bnl (.explicit ⟨offset.toNat, idx.toNat, base.toNat⟩)
  | .bnm idx base offset => .ext .bnm (.explicit ⟨offset.toNat, idx.toNat, base.toNat⟩)
  | .bnh idx base offset => .ext .bnh (.explicit ⟨offset.toNat, idx.toNat, base.toNat⟩)
  | .bnp idx base offset => .ext .bnp (.explicit ⟨offset.toNat, idx.toNat, base.toNat⟩)
  | .bno idx base offset => .ext .bno (.explicit ⟨offset.toNat, idx.toNat, base.toNat⟩)
  | .b idx base offset => .ext .b (.explicit ⟨offset.toNat, idx.toNat, base.toNat⟩)

end Sys2Proof.Machine
end

