-- ==== Sys2Proof/Machine/SourceText.lean ====
section
/-! DEFINITION. The text of a source line: the operands `mask,offset(index register,base register)` in
decimal, the extended mnemonics, labels, comments (30_encoding.md R72, R73, R75, R76). Text is a list
of characters. -/

namespace Sys2Proof.Machine

/-- What a source line is. -/
inductive SourceLine where
  /-- A comment line: its first non-blank character after the label position is `*` (R76). -/
  | comment
  /-- A statement, with the label that starts in the first column, empty if there is none (R76). -/
  | statement (label : List Char) (st : Statement)
  deriving DecidableEq, Repr

/-- A mnemonic's spelling. -/
def spelling : Mnemonic → List Char
  | .nop => ['N', 'O', 'P']
  | .bo => ['B', 'O']
  | .bh => ['B', 'H']
  | .bp => ['B', 'P']
  | .bl => ['B', 'L']
  | .bm => ['B', 'M']
  | .bne => ['B', 'N', 'E']
  | .bnz => ['B', 'N', 'Z']
  | .be => ['B', 'E']
  | .bz => ['B', 'Z']
  | .bnl => ['B', 'N', 'L']
  | .bnm => ['B', 'N', 'M']
  | .bnh => ['B', 'N', 'H']
  | .bnp => ['B', 'N', 'P']
  | .bno => ['B', 'N', 'O']
  | .b => ['B']

/-- All sixteen, in the order of opcode_table.json. -/
def allMnemonics : List Mnemonic :=
  [.nop, .bo, .bh, .bp, .bl, .bm, .bne, .bnz, .be, .bz, .bnl, .bnm, .bnh, .bnp, .bno, .b]

/-- The mnemonic a word spells, if it is one of the sixteen. -/
def mnemonicOf (word : List Char) : Option Mnemonic := allMnemonics.find? (fun m => spelling m == word)

/-! ### Writing -/

/-- A number in decimal (R72). -/
def writeNat (n : Nat) : List Char := Nat.toDigits 10 n

/-- A target as written (R72, R73, R76). -/
def writeTarget : TargetForm → List Char
  | .explicit op =>
    writeNat op.offset ++ ['('] ++ writeNat op.idx ++ [','] ++ writeNat op.base ++ [')']
  | .single offset v => writeNat offset ++ ['('] ++ writeNat v ++ [')']
  | .label name => name

/-- A statement as written: the mnemonic, a blank, the operands with no blank between them (R72, R75). -/
def writeStatement : Statement → List Char
  | .bc mask target => ['B', 'C', ' '] ++ writeNat mask ++ [','] ++ writeTarget target
  | .ext mnemonic target => spelling mnemonic ++ [' '] ++ writeTarget target

/-- A line that holds a statement, with its label in the first column (R76). -/
def writeLine (label : List Char) (st : Statement) : List Char := label ++ [' '] ++ writeStatement st

/-! ### Reading -/

/-- The value of a decimal digit. -/
def digitOf (c : Char) : Option Nat :=
  if '0' ≤ c ∧ c ≤ '9' then some (c.toNat - '0'.toNat) else none

/-- The decimal number that begins a text, and the text after it, continuing from `acc`. -/
def readDigits (acc : Nat) : List Char → Nat × List Char
  | [] => (acc, [])
  | c :: cs =>
    match digitOf c with
    | some d => readDigits (acc * 10 + d) cs
    | none => (acc, c :: cs)

/-- A decimal number of at least one digit. -/
def readNat : List Char → Option (Nat × List Char)
  | [] => none
  | c :: cs =>
    match digitOf c with
    | some d => some (readDigits d cs)
    | none => none

/-- A label, in the first column or as a target, is a letter and then letters and digits (DESIGN CHOICE,
log entry 8: the spec gives no spelling). -/
def isLabel : List Char → Bool
  | [] => false
  | c :: cs => c.isAlpha && cs.all (fun d => d.isAlphanum)

/-- What follows an offset: `(idx,base)` or `(v)`, to the end of the text (R72, R76). -/
def readRegisters (offset : Nat) : List Char → Option TargetForm
  | '(' :: cs =>
    match readNat cs with
    | some (first, [')']) => some (.single offset first)
    | some (first, ',' :: cs') =>
      match readNat cs' with
      | some (second, [')']) => some (.explicit ⟨offset, first, second⟩)
      | _ => none
    | _ => none
  | _ => none

/-- A target: an explicit operand if it begins with a digit, else a label (R72, R73). -/
def readTarget (cs : List Char) : Option TargetForm :=
  match readNat cs with
  | some (offset, rest) => readRegisters offset rest
  | none => if isLabel cs then some (.label cs) else none

/-- The statement of a mnemonic and its operand text. A word that is neither BC nor one of the sixteen
is outside the spec (42_instructions_named_only.md). -/
def readStatement (word operands : List Char) : Option Statement :=
  if word = ['B', 'C'] then
    match readNat operands with
    | some (mask, ',' :: target) => (readTarget target).map (.bc mask)
    | _ => none
  else
    match mnemonicOf word with
    | some m => (readTarget operands).map (.ext m)
    | none => none

/-- The word that begins a text, up to a blank or the end, and the text after it. -/
def readWord : List Char → List Char × List Char
  | [] => ([], [])
  | c :: cs => if c = ' ' then ([], c :: cs) else (c :: (readWord cs).1, (readWord cs).2)

/-- A text without its leading blanks. -/
def skipBlanks : List Char → List Char
  | [] => []
  | c :: cs => if c = ' ' then skipBlanks cs else c :: cs

/-- A text begins with `*`. -/
def isCommentMark : List Char → Bool
  | [] => false
  | c :: _ => c == '*'

/-- A source line: "an optional label starting in the first column, blanks, the mnemonic, blanks, the
operands, blanks, a free-text comment", or a comment if the first non-blank character after the label
position is `*` (R76). The model's choices, log entry 8: the label position is the word that starts in
the first column, so a comment line may have one, and is a comment whatever that word; a line with `*`
itself in the first column is a comment too; and the label of a statement is spelled as `isLabel` says.
A text the spec gives no meaning is nothing. -/
def readLine (text : List Char) : Option SourceLine :=
  match readWord text with
  | (label, rest) =>
    if isCommentMark label || isCommentMark (skipBlanks rest) then some .comment
    else if label = [] ∨ isLabel label = true then
      match readWord (skipBlanks rest) with
      | (word, rest') => (readStatement word (readWord (skipBlanks rest')).1).map (.statement label)
    else none

end Sys2Proof.Machine
end

