-- ==== Sys2Proof/Machine/Run.lean ====
section
/-! DEFINITION. A run: steps until the exit predicate holds, a fault or a refusal
(70_reset_and_hazards.md R156, R160; 60_exceptions.md R135). -/

namespace Sys2Proof.Machine

/-- Where a run stands after at most a given number of steps. -/
inductive RunResult where
  /-- The run ended successfully in `s`: `IsExit(pc)` held before the fetch (R156). -/
  | exited (s : State)
  /-- An exception ended it; `s` is the state before the faulting instruction (60_exceptions.md R135). -/
  | faulted (s : State) (f : Fault)
  /-- A refusal ended it in `s` (30_encoding.md R70). -/
  | refused (s : State) (r : Refusal)
  /-- It has not ended (R160). -/
  | running (s : State)
  deriving DecidableEq, Repr

/-- At most `n` steps from `s`. The exit check is made at the start of a step, before the fetch; a
fault or a refusal is final and is never a successful end (R156; 60_exceptions.md R135, R137). -/
def runFor : Nat → State → RunResult
  | 0, s => if exitAt s s.psw.pc then .exited s else .running s
  | n + 1, s =>
    if exitAt s s.psw.pc then .exited s
    else
      match step s with
      | .next t => runFor n t
      | .fault f => .faulted s f
      | .refused r => .refused s r

/-- The state in which a run stands. -/
def RunResult.state : RunResult → State
  | .exited s => s
  | .faulted s _ => s
  | .refused s _ => s
  | .running s => s

end Sys2Proof.Machine
end

