-- ==== Sys2Proof/Safety.lean ====
section
/-! DEFINITION. What counts as a well-formed machine and a safe run, in the terms the statements use:
the launch premises of 70_reset_and_hazards.md R151 and the invariant of the state's fields. The
premise `QuietSystem` needs no definition: nothing but a step changes the state (log entry 15). -/

namespace Sys2Proof.Machine

/-- The listed addresses rise strictly from `lo` on. -/
def risingFrom {α : Type} (lo : Nat) : List (Nat × α) → Bool
  | [] => true
  | (a, _) :: rest => decide (lo ≤ a) && risingFrom (a + 1) rest

/-- The parameters are ones 00_scope.md R6 admits: an address is at least 13 bits wide and a register at
least 1, the two bounds R6 states (D1, D2). R6 and D11 state no bound for `KEY_BITS`; that every width
is admitted, 0 included, is the model's choice (DESIGN CHOICE, log entry 19). The address maps list
their breaks in rising order, the model's own form (log entry 1). -/
def configWf (c : Config) : Bool :=
  decide (13 ≤ c.addrBits) && decide (1 ≤ c.grBits) &&
    risingFrom 0 c.valid.breaks && risingFrom 0 c.isExit.breaks

/-- Every storage key fits `KEY_BITS`. -/
def keysFit (keyBits : Nat) (m : AddressMap Nat) : Bool :=
  decide (m.first < 2 ^ keyBits) && m.breaks.all (fun p => decide (p.2 < 2 ^ keyBits))

/-- `EvenPc` (R151): `pc` is even. -/
abbrev EvenPc (s : State) : Prop := s.psw.pc % 2 = 0

/-- `FetchablePc` (R151): `Valid` holds of `pc .. pc+3`, and `KeyOK` of them if `PROTECT_FETCH`. -/
abbrev FetchablePc (s : State) : Prop :=
  ∀ a ∈ fetchAddresses s, validAt s a = true ∧ (s.cfg.protectFetch = true → keyOK s a = true)

/-- Every register has a value: enough for every branch, and more than R151 asks of a launch. -/
abbrev AllRegsValued (s : State) : Prop := s.noValue = []

/-- The instruction at `pc` is a BC about to take its branch that reads the register `r`: its base
register, or its index register if the field is not 0 (40_branch_on_condition.md R80; R86 for a base
field of 0). -/
def ReadByNextBranch (s : State) (r : RegNum) : Prop :=
  ∃ w mask idx base offset, fetch s = .ok w ∧ decodeWord w = .instr (.bc mask idx base offset) ∧
    branchSelected s mask base = true ∧ r ≠ 0 ∧ (r = base ∨ r = idx)

/-- `RegsForBranches` (R151): every register a reachable taken BC reads has a value. A state is
reachable if the run from `s` stands in it before any end (DEDUCED, log entry 13). -/
def RegsForBranches (s : State) : Prop :=
  ∀ n u r, runFor n s = .running u → ReadByNextBranch u r → readReg u r ≠ none

/-- `NoFault` (R151): the run stands at no fault and no refusal. -/
def NoFault : RunResult → Prop
  | .exited _ => True
  | .running _ => True
  | .faulted _ _ => False
  | .refused _ _ => False

/-- The widths and forms of the fields (10_state.md, the opening table): the parameters are admitted,
`pc` is an even address, the key, the registers and the storage keys fit their widths, storage is in
canonical form within the address space, and the keys are listed in rising order. -/
structure State.Inv (s : State) : Prop where
  cfg : configWf s.cfg = true
  pc_lt : s.psw.pc < 2 ^ s.cfg.addrBits
  pc_even : EvenPc s
  key_lt : s.psw.key < 2 ^ s.cfg.keyBits
  regs_lt : ∀ r : RegNum, regAt s r < 2 ^ s.cfg.grBits
  mem_wf : Memory.wf s.mem = true
  mem_lt : ∀ c ∈ s.mem, c.1 < 2 ^ s.cfg.addrBits
  keys_fit : keysFit s.cfg.keyBits s.storageKeys = true
  keys_rising : risingFrom 0 s.storageKeys.breaks = true

/-- A BC with these operands in this state has a target `t` it may branch to: a base field of 0 does
not stop it, its registers have values and form `t`, and `t` is even, valid and of a matching key (the
conditions of 40_branch_on_condition.md R80, R87, but for the mask and the condition code). -/
structure BranchReady (s : State) (idx base : RegNum) (offset : Offset) (t : Nat) : Prop where
  base_serves : base ≠ 0 ∨ s.cfg.base0Mode = .zeroBase
  target : formTarget s idx base offset = .ok t
  even : t % 2 = 0
  valid : validAt s t = true
  key_ok : s.cfg.protectFetch = true → keyOK s t = true

/-- The instructions `make` builds branch exactly on the condition codes `sel`: in a state where a
branch may be taken, they go to the target on those codes; on every other code they go to the next
instruction, in every state. Nothing else changes. -/
def BranchesExactlyOn (make : RegNum → RegNum → Offset → Instr) (sel : CondCode → Prop) : Prop :=
  (∀ s idx base offset t, sel s.psw.cc → BranchReady s idx base offset t →
      exec (make idx base offset) s = .next (setPc s t)) ∧
    (∀ s idx base offset, ¬ sel s.psw.cc →
      exec (make idx base offset) s = .next (setPc s (nextAddress s)))

end Sys2Proof.Machine
end

