-- ==== Sys2Proof/Certificates/Slice0/Obligations.lean ====
section
/-! DEFINITION. The statements for the provers. Each docstring names the sentence of the spec it
formalises; where a clause is the spec's own decision or the model's choice, it says so. -/

open Sys2Proof Sys2Proof.Machine

/-! ### Encoding -/

/-- 30_encoding.md R60: the five fields of the BC word and the bytes and halves they stand in. -/
def Obligations.BcWordHoldsItsFieldsInTheirBits : Prop :=
  ∀ (mask : Mask) (idx base : RegNum) (offset : Offset),
    (encode (.bc mask idx base offset)).extractLsb' 24 8 = 0x47#8 ∧
    (encode (.bc mask idx base offset)).extractLsb' 20 4 = mask ∧
    (encode (.bc mask idx base offset)).extractLsb' 16 4 = idx ∧
    (encode (.bc mask idx base offset)).extractLsb' 12 4 = base ∧
    (encode (.bc mask idx base offset)).extractLsb' 0 12 = offset ∧
    encodeBytes (.bc mask idx base offset) =
      [0x47#8, mask ++ idx, base ++ offset.extractLsb' 8 4, offset.extractLsb' 0 8]

/-- 30_encoding.md R62: the field ranges, and that no value of any field is reserved. The assembler
takes exactly the operands in range, and every one of them is a BC for the decoder. -/
def Obligations.EveryFieldValueIsABc : Prop :=
  ∀ mask idx base offset : Nat,
    ((assemble [] (.bc mask (.explicit ⟨offset, idx, base⟩))).isSome = true ↔
      mask ≤ 15 ∧ base ≤ 15 ∧ idx ≤ 15 ∧ offset ≤ 4095) ∧
    (mask ≤ 15 → base ≤ 15 → idx ≤ 15 → offset ≤ 4095 →
      decodeWord (BitVec.ofNat 32 (0x47000000 + mask * 2 ^ 20 + idx * 2 ^ 16 + base * 2 ^ 12 + offset)) =
        .instr (.bc (BitVec.ofNat 4 mask) (BitVec.ofNat 4 idx) (BitVec.ofNat 4 base)
          (BitVec.ofNat 12 offset)))

/-- 30_encoding.md R64: decode then encode, and encode then decode, are identities on the words whose
first byte is 0x47, and the encoding is the sum R64 gives (the identities are the spec's derivation). -/
def Obligations.DecodeAndEncodeAreInverseOnBc : Prop :=
  (∀ mask idx base offset,
    decodeWord (encode (.bc mask idx base offset)) = .instr (.bc mask idx base offset) ∧
    (encode (.bc mask idx base offset)).toNat =
      0x47000000 + mask.toNat * 2 ^ 20 + idx.toNat * 2 ^ 16 + base.toNat * 2 ^ 12 + offset.toNat) ∧
  (∀ w : InstrWord, w &&& 0xFF000000#32 = 0x47000000#32 →
    ∃ i, decodeWord w = .instr i ∧ encode i = w) ∧
  (∀ w : InstrWord, w &&& 0xFF000000#32 ≠ 0x47000000#32 →
    decodeWord w = .opcodeOutOfScope (w.extractLsb' 24 8))

/-- 30_encoding.md R68, 41_extended_mnemonics.md R90: a decoder decodes every instruction's word as the
BC it stands for, from its bytes in storage order, whatever bytes follow. -/
def Obligations.EveryInstructionDecodesToItsBc : Prop :=
  ∀ (i : Instr) (rest : List Byte), decode (encodeBytes i ++ rest) = .done (.instr (expand i)) rest

/-- 00_scope.md R9: the word of four bytes is `b1 * 2^24 + b2 * 2^16 + b3 * 2^8 + b4`, and its bytes
are those four again. -/
def Obligations.WordOfBytesIsBigEndian : Prop :=
  ∀ b1 b2 b3 b4 : Byte,
    (wordOfBytes [b1, b2, b3, b4]).toNat =
      b1.toNat * 2 ^ 24 + b2.toNat * 2 ^ 16 + b3.toNat * 2 ^ 8 + b4.toNat ∧
    bytesOfWord (wordOfBytes [b1, b2, b3, b4]) = [b1, b2, b3, b4]

/-- 95_test_vectors.md A.2 and B.1: some of the words the spec prints, with their fields. -/
def Obligations.PrintedWordsDecodeAsPrinted : Prop :=
  decodeTableWord 32 0x47F0A06A = some (.bc 15 0 10 0x06A) ∧
  decodeTableWord 32 0x47076100 = some (.bc 0 7 6 0x100) ∧
  decodeTableWord 32 0x47FC0006 = some (.bc 15 12 0 0x006) ∧
  decodeTableWord 32 0x47B0A06A = some (.bc 11 0 10 0x06A) ∧
  decodeTableWord 32 0x47A5C123 = some (.bc 10 5 12 0x123) ∧
  decodeTableWord 32 0x46F0A06A = none

/-! ### Fetch and step -/

/-- 20_memory.md R43, 00_scope.md R15: when the fetch passes and the word decodes to an instruction,
the step is that instruction; there is nothing around it (40_branch_on_condition.md R88). -/
def Obligations.StepRunsTheDecodedInstruction : Prop :=
  ∀ (s : State) (i : Instr), EvenPc s → FetchablePc s →
    decode (memRead s.cfg.addrBits s.mem s.psw.pc 4) = .done (.instr i) [] →
    step s = exec i s

/-- 30_encoding.md R70, 00_scope.md R5 (a decision of the spec, D12): a first byte other than 0x47 is
refused by that byte, and no number of further steps changes that. -/
def Obligations.EveryOtherOpcodeIsRefused : Prop :=
  ∀ s : State, EvenPc s → FetchablePc s → readByte s.mem s.psw.pc ≠ 0x47#8 →
    step s = .refused (.opcodeOutOfScope (readByte s.mem s.psw.pc)) ∧
    ∀ n, exitAt s s.psw.pc = false →
      runFor (n + 1) s = .refused s (.opcodeOutOfScope (readByte s.mem s.psw.pc))

/-- 20_memory.md R43, R44 (that byte 1 is at the lowest address is the spec's decision, D12): the fetch
reads the four bytes at `pc` on, addresses wrapping, the first the most significant. -/
def Obligations.FetchReadsTheFourBytesAtPc : Prop :=
  ∀ s : State, EvenPc s → FetchablePc s → ∃ w, fetch s = .ok w ∧
    w.toNat = (readByte s.mem s.psw.pc).toNat * 2 ^ 24 +
      (readByte s.mem ((s.psw.pc + 1) % 2 ^ s.cfg.addrBits)).toNat * 2 ^ 16 +
      (readByte s.mem ((s.psw.pc + 2) % 2 ^ s.cfg.addrBits)).toNat * 2 ^ 8 +
      (readByte s.mem ((s.psw.pc + 3) % 2 ^ s.cfg.addrBits)).toNat

/-- 60_exceptions.md R136 (decisions of the spec, D12 and D7; which of several failing addresses is
recorded is the model's choice, log entry 7): the fetch checks, odd first, then every address's
validity, then every address's key. -/
def Obligations.FetchFaultsOddThenInvalidThenKey : Prop :=
  ∀ s : State,
    (s.psw.pc % 2 = 1 → step s = .fault (.operationException .oddTarget .fetch s.psw.pc s.psw.pc)) ∧
    (∀ before a after, EvenPc s → fetchAddresses s = before ++ a :: after →
      (∀ x ∈ before, validAt s x = true) → validAt s a = false →
      step s = .fault (.operationException .invalidTarget .fetch s.psw.pc a)) ∧
    (∀ before a after, EvenPc s → fetchAddresses s = before ++ a :: after →
      (∀ x ∈ fetchAddresses s, validAt s x = true) → s.cfg.protectFetch = true →
      (∀ x ∈ before, keyOK s x = true) → s.psw.key ≠ 0 → keyAt s a ≠ s.psw.key →
      step s = .fault (.memoryProtectException .fetch s.psw.pc a (keyAt s a) s.psw.key))

/-- 20_memory.md R43, and the model's own placing of an instruction: the word placed at `pc` is the word
the next fetch answers, storage stays canonical, and no other byte changes. -/
def Obligations.PlacedWordIsFetchedNext : Prop :=
  ∀ (s : State) (w : Nat), State.Inv s → FetchablePc s →
    fetch (s.withFetchWord 32 w) = .ok (BitVec.ofNat 32 w) ∧
    Memory.wf (s.withFetchWord 32 w).mem = true ∧
    ∀ a, a ∉ fetchAddresses s → readByte (s.withFetchWord 32 w).mem a = readByte s.mem a

/-! ### The instruction BC -/

/-- 40_branch_on_condition.md R80: the pseudocode of BC under the spec's setting, written out. Its
modular reductions, its silence when it does not branch, the order of its checks and the read of a
register with no value are decisions of the spec (D2, D3, D4, D6, D7, D19). -/
def Obligations.BcFollowsItsPseudocode : Prop :=
  ∀ (mask : Mask) (idx base : RegNum) (offset : Offset) (s : State),
    s.cfg.base0Mode = .sourceNoop →
    exec (.bc mask idx base offset) s =
      if mask.getLsbD (3 - s.psw.cc.val) = true ∧ base ≠ 0 then
        match readReg s base with
        | none => .fault (.unwrittenRegister base)
        | some bv =>
          match (if idx = 0 then some 0 else readReg s idx) with
          | none => .fault (.unwrittenRegister idx)
          | some iv =>
            let t := (bv % 2 ^ s.cfg.addrBits + iv % 2 ^ s.cfg.addrBits + offset.toNat) % 2 ^ s.cfg.addrBits
            if t % 2 = 1 then .fault (.operationException .oddTarget .branch s.psw.pc t)
            else if validAt s t = false then
              .fault (.operationException .invalidTarget .branch s.psw.pc t)
            else if s.cfg.protectFetch = true ∧ ¬ (s.psw.key = 0 ∨ keyAt s t = s.psw.key) then
              .fault (.memoryProtectException .branch s.psw.pc t (keyAt s t) s.psw.key)
            else .next (setPc s t)
      else .next (setPc s ((s.psw.pc + 4) % 2 ^ s.cfg.addrBits))

/-- 40_branch_on_condition.md R86: the pseudocode of the alternative setting, which is NOT what the
source says (90_conflicts.md C8), written out. The decisions within it are those of the other setting. -/
def Obligations.BcUnderZeroBaseFollowsItsPseudocode : Prop :=
  ∀ (mask : Mask) (idx base : RegNum) (offset : Offset) (s : State),
    s.cfg.base0Mode = .zeroBase →
    exec (.bc mask idx base offset) s =
      if mask.getLsbD (3 - s.psw.cc.val) = true then
        match (if base = 0 then some 0 else readReg s base) with
        | none => .fault (.unwrittenRegister base)
        | some bv =>
          match (if idx = 0 then some 0 else readReg s idx) with
          | none => .fault (.unwrittenRegister idx)
          | some iv =>
            let t := (bv % 2 ^ s.cfg.addrBits + iv % 2 ^ s.cfg.addrBits + offset.toNat) % 2 ^ s.cfg.addrBits
            if t % 2 = 1 then .fault (.operationException .oddTarget .branch s.psw.pc t)
            else if validAt s t = false then
              .fault (.operationException .invalidTarget .branch s.psw.pc t)
            else if s.cfg.protectFetch = true ∧ ¬ (s.psw.key = 0 ∨ keyAt s t = s.psw.key) then
              .fault (.memoryProtectException .branch s.psw.pc t (keyAt s t) s.psw.key)
            else .next (setPc s t)
      else .next (setPc s ((s.psw.pc + 4) % 2 ^ s.cfg.addrBits))

/-- 40_branch_on_condition.md R86: the two settings agree on every word whose base field is not 0 and on
every word whose mask is 0: same next address, same fault. -/
def Obligations.SettingsAgreeOffBaseZero : Prop :=
  ∀ (mask : Mask) (idx base : RegNum) (offset : Offset) (s z : State),
    s.cfg.base0Mode = .sourceNoop → z = { s with cfg := { s.cfg with base0Mode := .zeroBase } } →
    (base ≠ 0 ∨ mask = 0) →
    (∀ t, exec (.bc mask idx base offset) s = .next (setPc s t) ↔
      exec (.bc mask idx base offset) z = .next (setPc z t)) ∧
    (∀ f, exec (.bc mask idx base offset) s = .fault f ↔ exec (.bc mask idx base offset) z = .fault f)

/-- 40_branch_on_condition.md R81: the four mask bits, written left to right (values 8, 4, 2, 1), stand
for the condition codes 0, 1, 2, 3, and the branch condition is met exactly when the bit of the current
code is 1. That a branch whose condition is not met goes to the next instruction in every state, with no
exception, is the spec's decision D6 (log entry 12), and the wrap of that address is D4 (log entry 11). -/
def Obligations.MaskBitSelectsItsConditionCode : Prop :=
  ∀ mask : Mask,
    BranchesExactlyOn (fun idx base offset => .bc mask idx base offset) (fun cc =>
      (cc = 0 ∧ mask.toNat / 8 % 2 = 1) ∨ (cc = 1 ∧ mask.toNat / 4 % 2 = 1) ∨
      (cc = 2 ∧ mask.toNat / 2 % 2 = 1) ∨ (cc = 3 ∧ mask.toNat % 2 = 1))

/-- 40_branch_on_condition.md R84 (that no exception is raised is the spec's decision, D6): under the
spec's setting a mask of 0 or a base field of 0 makes any instruction a no-operation, in every state. -/
def Obligations.ZeroMaskOrZeroBaseIsANoOperation : Prop :=
  ∀ (i : Instr) (mask : Mask) (idx base : RegNum) (offset : Offset) (s : State),
    expand i = .bc mask idx base offset →
    (mask = 0 ∨ (base = 0 ∧ s.cfg.base0Mode = .sourceNoop)) →
    exec i s = .next (setPc s ((s.psw.pc + 4) % 2 ^ s.cfg.addrBits))

/-- 40_branch_on_condition.md R85: "If the mask is 15 the branch is unconditional (unless the base
register is 0, in which case it does not branch)". That base 0 is a no-operation is the spec's setting D5
(log entry 10), that it is one in every state, with no exception, is its decision D6 (log entry 12), and
the wrap of the next address is D4 (log entry 11). -/
def Obligations.MaskFifteenIsUnconditional : Prop :=
  ∀ (idx base : RegNum) (offset : Offset) (s : State),
    (∀ t, BranchReady s idx base offset t →
      exec (.bc 15 idx base offset) s = .next (setPc s t)) ∧
    (base = 0 → s.cfg.base0Mode = .sourceNoop →
      exec (.bc 15 idx base offset) s = .next (setPc s (nextAddress s)))

/-- 30_encoding.md R66, 40_branch_on_condition.md R82, R83 (the reduction is the spec's decision, D2 and
D3): the address branched to is the sum of the register values, unless their fields are 0, and the
offset, modulo `2^ADDR_BITS`; the same register in both fields counts twice. -/
def Obligations.TargetIsTheModularSum : Prop :=
  ∀ (s : State) (idx base : RegNum) (offset : Offset) (t : Nat), BranchReady s idx base offset t →
    (base ≠ 0 → idx ≠ 0 → t = (regAt s base + regAt s idx + offset.toNat) % 2 ^ s.cfg.addrBits) ∧
    (base ≠ 0 → idx = 0 → t = (regAt s base + offset.toNat) % 2 ^ s.cfg.addrBits) ∧
    (base = 0 → idx ≠ 0 → t = (regAt s idx + offset.toNat) % 2 ^ s.cfg.addrBits) ∧
    (base = 0 → idx = 0 → t = offset.toNat % 2 ^ s.cfg.addrBits) ∧
    (base ≠ 0 → idx = base → t = (2 * regAt s base + offset.toNat) % 2 ^ s.cfg.addrBits)

/-- 30_encoding.md R67, 40_branch_on_condition.md R83 (d): exchanging two non-zero register fields
changes nothing, if both registers have values (with none, the fault names the base register). -/
def Obligations.ExchangingNonZeroRegistersChangesNothing : Prop :=
  ∀ (mask : Mask) (idx base : RegNum) (offset : Offset) (s : State), idx ≠ 0 → base ≠ 0 →
    readReg s idx ≠ none → readReg s base ≠ none →
    exec (.bc mask idx base offset) s = exec (.bc mask base idx offset) s

/-- 40_branch_on_condition.md R83 (e): exchanging when one field is 0 changes the behaviour: base 0 never
branches, index 0 branches, where the target may be branched to, to the base value plus the offset. The
no-operation in every state rests on the spec's decisions D5, D6 and D4 (log entries 10, 12, 11), the
sum modulo `2^ADDR_BITS` on D2 and D3 (log entry 11). -/
def Obligations.ZeroBaseAndZeroIndexDiffer : Prop :=
  ∀ (r : RegNum) (offset : Offset) (s : State), s.cfg.base0Mode = .sourceNoop →
    exec (.bc 15 r 0 offset) s = .next (setPc s (nextAddress s)) ∧
    ∀ t, BranchReady s 0 r offset t → exec (.bc 15 0 r offset) s = .next (setPc s t) ∧
      t = (regAt s r + offset.toNat) % 2 ^ s.cfg.addrBits

/-! ### Exceptions -/

/-- 60_exceptions.md R131: an instruction about to branch to an odd target raises the operation
exception; the run ends in the state before it, so `pc` is not changed. NOP never does. -/
def Obligations.OddTargetRaisesOperationException : Prop :=
  (∀ (i : Instr) (mask : Mask) (idx base : RegNum) (offset : Offset) (s : State) (t : Nat),
    expand i = .bc mask idx base offset → mask.getLsbD (3 - s.psw.cc.val) = true →
    (base ≠ 0 ∨ s.cfg.base0Mode = .zeroBase) → formTarget s idx base offset = .ok t → t % 2 = 1 →
    exec i s = .fault (.operationException .oddTarget .branch s.psw.pc t) ∧
    (fetch s = .ok (encode i) → exitAt s s.psw.pc = false → ∀ n,
      runFor (n + 1) s = .faulted s (.operationException .oddTarget .branch s.psw.pc t))) ∧
  (∀ idx base offset s f, exec (.nop idx base offset) s ≠ .fault f)

/-- 60_exceptions.md R132: an even target that is not valid raises the operation exception; `pc` is not
changed. -/
def Obligations.InvalidTargetRaisesOperationException : Prop :=
  ∀ (i : Instr) (mask : Mask) (idx base : RegNum) (offset : Offset) (s : State) (t : Nat),
    expand i = .bc mask idx base offset → mask.getLsbD (3 - s.psw.cc.val) = true →
    (base ≠ 0 ∨ s.cfg.base0Mode = .zeroBase) → formTarget s idx base offset = .ok t →
    t % 2 = 0 → validAt s t = false →
    exec i s = .fault (.operationException .invalidTarget .branch s.psw.pc t) ∧
    (fetch s = .ok (encode i) → exitAt s s.psw.pc = false → ∀ n,
      runFor (n + 1) s = .faulted s (.operationException .invalidTarget .branch s.psw.pc t))

/-- 60_exceptions.md R133: an even, valid target of another key, for a process whose key is not 0,
raises the memory protect violate exception under `PROTECT_FETCH`; `pc` is not changed. -/
def Obligations.KeyMismatchRaisesMemoryProtectException : Prop :=
  ∀ (i : Instr) (mask : Mask) (idx base : RegNum) (offset : Offset) (s : State) (t : Nat),
    expand i = .bc mask idx base offset → mask.getLsbD (3 - s.psw.cc.val) = true →
    (base ≠ 0 ∨ s.cfg.base0Mode = .zeroBase) → formTarget s idx base offset = .ok t →
    t % 2 = 0 → validAt s t = true → s.cfg.protectFetch = true → s.psw.key ≠ 0 →
    keyAt s t ≠ s.psw.key →
    exec i s = .fault (.memoryProtectException .branch s.psw.pc t (keyAt s t) s.psw.key) ∧
    (fetch s = .ok (encode i) → exitAt s s.psw.pc = false → ∀ n,
      runFor (n + 1) s =
        .faulted s (.memoryProtectException .branch s.psw.pc t (keyAt s t) s.psw.key))

/-- 20_memory.md R50: `KeyOK(a) := (key = 0) or (K(a) = key)`: a branch about to be taken to an even,
valid target is taken exactly when the process's key is 0 or is the target's key. -/
def Obligations.KeyCheckPassesOnZeroOrEqualKey : Prop :=
  ∀ (i : Instr) (mask : Mask) (idx base : RegNum) (offset : Offset) (s : State) (t : Nat),
    expand i = .bc mask idx base offset → mask.getLsbD (3 - s.psw.cc.val) = true →
    (base ≠ 0 ∨ s.cfg.base0Mode = .zeroBase) → formTarget s idx base offset = .ok t →
    t % 2 = 0 → validAt s t = true → s.cfg.protectFetch = true →
    (exec i s = .next (setPc s t) ↔ s.psw.key = 0 ∨ keyAt s t = s.psw.key)

/-- 00_scope.md R6 (`PROTECT_FETCH`), 60_exceptions.md R140: with the check switched off, or for a
process with key 0, no step raises the memory protect violate exception. -/
def Obligations.NoProtectExceptionWhenOffOrKeyZero : Prop :=
  ∀ s : State, (s.cfg.protectFetch = false ∨ s.psw.key = 0) →
    ∀ against pc t k q, step s ≠ .fault (.memoryProtectException against pc t k q)

/-- 60_exceptions.md R136, 10_state.md R23 (a decision of the spec, D19): a branch about to be taken
faults on the first register it reads that has no value, the base register first, before any check of
the address; a branch not taken reads none. -/
def Obligations.UnwrittenRegisterFaultsOnlyWhenBranching : Prop :=
  ∀ (i : Instr) (mask : Mask) (idx base : RegNum) (offset : Offset) (s : State),
    expand i = .bc mask idx base offset →
    (mask.getLsbD (3 - s.psw.cc.val) = true → base ≠ 0 → base ∈ s.noValue →
      exec i s = .fault (.unwrittenRegister base)) ∧
    (mask.getLsbD (3 - s.psw.cc.val) = true → (base ≠ 0 ∨ s.cfg.base0Mode = .zeroBase) →
      (base = 0 ∨ base ∉ s.noValue) → idx ≠ 0 → idx ∈ s.noValue →
      exec i s = .fault (.unwrittenRegister idx)) ∧
    (mask.getLsbD (3 - s.psw.cc.val) = false →
      exec i s = .next (setPc s (nextAddress s)))

/-- 10_state.md R22, R23 and the model's reset (log entry 4): where every register has a value, no step
faults on a register and every register keeps its value, so the launch premise `RegsForBranches` holds;
the reset state is such a state. -/
def Obligations.ValuedRegistersNeverFault : Prop :=
  (∀ s : State, AllRegsValued s →
    (∀ r, step s ≠ .fault (.unwrittenRegister r)) ∧
    (∀ t, step s = .next t → AllRegsValued t ∧ ∀ r, readReg t r = readReg s r) ∧
    RegsForBranches s) ∧
  AllRegsValued State.reset

/-- 70_reset_and_hazards.md R151 (`RegsForBranches`; decisions of the spec, D17 and D19): the premise asks
exactly that no run faults on a register, and it holds on after a step of a run that has not ended. What
is reachable is read as log entry 13 says. -/
def Obligations.RegsForBranchesIsNoRegisterFault : Prop :=
  ∀ s : State,
    (RegsForBranches s ↔ ∀ n u r, runFor n s ≠ .faulted u (.unwrittenRegister r)) ∧
    ∀ t, RegsForBranches s → exitAt s s.psw.pc = false → step s = .next t → RegsForBranches t

/-! ### The extended mnemonics -/

/-- 41_extended_mnemonics.md R90: an extended mnemonic assembles to exactly the bytes of `BC m,target`,
the word is the sum R90 gives, and with a base field of 0 every one of them is a no-operation: in every
state and with no exception by the spec's decisions D5 and D6 (log entries 10, 12), the wrap of the next
address by D4 (log entry 11). -/
def Obligations.ExtendedMnemonicAssemblesToItsBc : Prop :=
  ∀ (symbols : Symbols) (m : Mnemonic) (target : TargetForm),
    assembleBytes symbols (.ext m target) = assembleBytes symbols (.bc (maskOf m) target) ∧
    (∀ idx base offset, (encode (instrOf m idx base offset)).toNat =
      0x47000000 + maskOf m * 2 ^ 20 + idx.toNat * 2 ^ 16 + base.toNat * 2 ^ 12 + offset.toNat) ∧
    (∀ idx offset s, s.cfg.base0Mode = .sourceNoop →
      exec (instrOf m idx 0 offset) s = .next (setPc s (nextAddress s)))

/-- 41_extended_mnemonics.md, the rows "Branches on" of R91 to R106: each mnemonic branches exactly on its
condition codes. That another code goes to the next instruction in every state rests on the spec's decisions D6 and
D4 (log entries 12, 11). -/
def Obligations.ExtendedMnemonicsBranchOnTheirConditionCodes : Prop :=
  BranchesExactlyOn .nop (fun _ => False) ∧
  BranchesExactlyOn .bo (fun cc => cc = 3) ∧
  BranchesExactlyOn .bh (fun cc => cc = 2) ∧
  BranchesExactlyOn .bp (fun cc => cc = 2) ∧
  BranchesExactlyOn .bl (fun cc => cc = 1) ∧
  BranchesExactlyOn .bm (fun cc => cc = 1) ∧
  BranchesExactlyOn .bne (fun cc => cc = 1 ∨ cc = 2 ∨ cc = 3) ∧
  BranchesExactlyOn .bnz (fun cc => cc = 1 ∨ cc = 2 ∨ cc = 3) ∧
  BranchesExactlyOn .be (fun cc => cc = 0) ∧
  BranchesExactlyOn .bz (fun cc => cc = 0) ∧
  BranchesExactlyOn .bnl (fun cc => cc = 0 ∨ cc = 2 ∨ cc = 3) ∧
  BranchesExactlyOn .bnm (fun cc => cc = 0 ∨ cc = 2 ∨ cc = 3) ∧
  BranchesExactlyOn .bnh (fun cc => cc = 0 ∨ cc = 1 ∨ cc = 3) ∧
  BranchesExactlyOn .bnp (fun cc => cc = 0 ∨ cc = 1 ∨ cc = 3) ∧
  BranchesExactlyOn .bno (fun cc => cc = 0 ∨ cc = 1 ∨ cc = 2) ∧
  BranchesExactlyOn .b (fun _ => True)

/-- 41_extended_mnemonics.md R107: the six masks without a mnemonic are as legal as the others, and branch
on the codes R107 lists; no printer's mnemonic stands for them. That another code goes to the next
instruction in every state rests on the spec's decisions D6 and D4 (log entries 12, 11). -/
def Obligations.UnnamedMasksBranchOnTheirConditionCodes : Prop :=
  BranchesExactlyOn (.bc 3) (fun cc => cc = 2 ∨ cc = 3) ∧
  BranchesExactlyOn (.bc 5) (fun cc => cc = 1 ∨ cc = 3) ∧
  BranchesExactlyOn (.bc 6) (fun cc => cc = 1 ∨ cc = 2) ∧
  BranchesExactlyOn (.bc 9) (fun cc => cc = 0 ∨ cc = 3) ∧
  BranchesExactlyOn (.bc 10) (fun cc => cc = 0 ∨ cc = 2) ∧
  BranchesExactlyOn (.bc 12) (fun cc => cc = 0 ∨ cc = 1) ∧
  ∀ mask : Mask, mnemonicFor mask = none ↔
    mask = 3 ∨ mask = 5 ∨ mask = 6 ∨ mask = 9 ∨ mask = 10 ∨ mask = 12

/-- 41_extended_mnemonics.md R94: BP has the bytes of BH, `0x472.....`, branches on condition code 2, and
so, after an arithmetic operation, exactly if the result is positive. That another code goes on in every
state, with no exception, rests on the spec's decisions D6 and D4 (log entries 12, 11). -/
def Obligations.BpBranchesExactlyOnAPositiveResult : Prop :=
  (∀ symbols target, assembleBytes symbols (.ext .bp target) = assembleBytes symbols (.bc 2 target)) ∧
  (∀ idx base offset, encode (.bp idx base offset) = encode (.bh idx base offset) ∧
    (encode (.bp idx base offset)).extractLsb' 20 12 = 0x472#12) ∧
  encode (.bp 7 6 0x100) = 0x47276100#32 ∧
  BranchesExactlyOn .bp (fun cc => cc = 2) ∧
  ∀ (o : ArithmeticOutcome) (idx base : RegNum) (offset : Offset) (s : State) (t : Nat),
    s.psw.cc = ccAfterArithmetic o → BranchReady s idx base offset t →
    exec (.bp idx base offset) s =
      .next (setPc s (if o = .positive then t else nextAddress s))

/-- 41_extended_mnemonics.md R98: BNZ has the bytes of BNE, `0x477.....`, branches on condition codes 1, 2
and 3, and so, after an arithmetic operation, exactly if the result is not zero. That code 0 goes on in
every state, with no exception, rests on the spec's decisions D6 and D4 (log entries 12, 11). -/
def Obligations.BnzBranchesExactlyOnANonZeroResult : Prop :=
  (∀ symbols target, assembleBytes symbols (.ext .bnz target) = assembleBytes symbols (.bc 7 target)) ∧
  (∀ idx base offset, encode (.bnz idx base offset) = encode (.bne idx base offset) ∧
    (encode (.bnz idx base offset)).extractLsb' 20 12 = 0x477#12) ∧
  encode (.bnz 0 10 0x06A) = 0x4770A06A#32 ∧
  BranchesExactlyOn .bnz (fun cc => cc = 1 ∨ cc = 2 ∨ cc = 3) ∧
  ∀ (o : ArithmeticOutcome) (idx base : RegNum) (offset : Offset) (s : State) (t : Nat),
    s.psw.cc = ccAfterArithmetic o → BranchReady s idx base offset t →
    exec (.bnz idx base offset) s =
      .next (setPc s (if o = .zero then nextAddress s else t))

/-- 41_extended_mnemonics.md R106: B is `BC 15,target`, `0x47F.....`, and branches on every condition code
provided the base field is not 0 (the "index register" of its table row is an error, 90_conflicts.md C1:
with the index field 0 it branches). The no-operation at base 0 in every state, with no exception, rests on
the spec's decisions D5, D6 and D4 (log entries 10, 12, 11). -/
def Obligations.BBranchesAlwaysUnlessBaseIsZero : Prop :=
  (∀ symbols target, assembleBytes symbols (.ext .b target) = assembleBytes symbols (.bc 15 target)) ∧
  (∀ idx base offset, (encode (.b idx base offset)).extractLsb' 20 12 = 0x47F#12) ∧
  encode (.b 0 10 0x06A) = 0x47F0A06A#32 ∧
  (∀ idx base offset s t, BranchReady s idx base offset t →
    exec (.b idx base offset) s = .next (setPc s t)) ∧
  (∀ idx offset s, s.cfg.base0Mode = .sourceNoop →
    exec (.b idx 0 offset) s = .next (setPc s (nextAddress s)))

/-- 41_extended_mnemonics.md R93, R95, R97, R99, R101, R103 with 10_state.md R30 (whose condition-code
numbers are the spec's derivation): after a comparison of A with B, the six mnemonics branch on
A > B, A < B, A ≠ B, A = B, A ≥ B, A ≤ B. -/
def Obligations.ComparisonMnemonicsBranchOnTheComparison : Prop :=
  ∀ (a b : Int) (idx base : RegNum) (offset : Offset) (s : State) (t : Nat),
    s.psw.cc = ccAfterComparison (compareOutcome a b) → BranchReady s idx base offset t →
    exec (.bh idx base offset) s = .next (setPc s (if a > b then t else nextAddress s)) ∧
    exec (.bl idx base offset) s = .next (setPc s (if a < b then t else nextAddress s)) ∧
    exec (.bne idx base offset) s = .next (setPc s (if a ≠ b then t else nextAddress s)) ∧
    exec (.be idx base offset) s = .next (setPc s (if a = b then t else nextAddress s)) ∧
    exec (.bnl idx base offset) s = .next (setPc s (if a ≥ b then t else nextAddress s)) ∧
    exec (.bnh idx base offset) s = .next (setPc s (if a ≤ b then t else nextAddress s))

/-- 41_extended_mnemonics.md R92, R96, R100, R102, R104, R105 with 10_state.md R29: after an arithmetic
operation the mnemonics branch on overflow, a negative result, a zero result, a result that is not
negative, one that is not positive (overflow among both, by the mask), and no overflow. -/
def Obligations.ArithmeticMnemonicsBranchOnTheResult : Prop :=
  ∀ (o : ArithmeticOutcome) (idx base : RegNum) (offset : Offset) (s : State) (t : Nat),
    s.psw.cc = ccAfterArithmetic o → BranchReady s idx base offset t →
    exec (.bo idx base offset) s = .next (setPc s (if o = .overflow then t else nextAddress s)) ∧
    exec (.bm idx base offset) s = .next (setPc s (if o = .negative then t else nextAddress s)) ∧
    exec (.bz idx base offset) s = .next (setPc s (if o = .zero then t else nextAddress s)) ∧
    exec (.bnm idx base offset) s = .next (setPc s (if o = .negative then nextAddress s else t)) ∧
    exec (.bnp idx base offset) s = .next (setPc s (if o = .positive then nextAddress s else t)) ∧
    exec (.bno idx base offset) s = .next (setPc s (if o = .overflow then nextAddress s else t))

/-- 41_extended_mnemonics.md R92, R96, R100, R105 with 10_state.md R31 (whose condition-code numbers are
the spec's derivation): after a test under mask, BO branches on ones, BM on mixed, BZ on zeroes and BNO on
not ones. -/
def Obligations.TestUnderMaskMnemonicsBranchOnTheTest : Prop :=
  ∀ (o : TestOutcome) (idx base : RegNum) (offset : Offset) (s : State) (t : Nat),
    s.psw.cc = ccAfterTestUnderMask o → BranchReady s idx base offset t →
    exec (.bo idx base offset) s = .next (setPc s (if o = .allOnes then t else nextAddress s)) ∧
    exec (.bm idx base offset) s = .next (setPc s (if o = .mixed then t else nextAddress s)) ∧
    exec (.bz idx base offset) s = .next (setPc s (if o = .allZeroes then t else nextAddress s)) ∧
    exec (.bno idx base offset) s = .next (setPc s (if o = .allOnes then nextAddress s else t))

/-! ### The assembler -/

/-- 30_encoding.md R72, R75, R76: the text of a statement, with or without a label in the first column,
reads back as that statement. A label, there or as a target, is a letter and then letters and digits (the
model's choice, log entry 8). -/
def Obligations.WrittenStatementReadsBack : Prop :=
  ∀ (label : List Char) (st : Statement), (label = [] ∨ isLabel label = true) →
    (∀ m name, st = .bc m (.label name) → isLabel name = true) →
    (∀ m name, st = .ext m (.label name) → isLabel name = true) →
    readLine (writeLine label st) = some (.statement label st)

/-- 30_encoding.md R64, R72 and 41_extended_mnemonics.md R90: every instruction is assembled from the
statement that spells it, whatever the labels. -/
def Obligations.EveryInstructionIsAssembledFromItsStatement : Prop :=
  ∀ (symbols : Symbols) (i : Instr),
    assemble symbols (disassemble i) = some i ∧ (disassemble i).wellFormed = true

/-- 30_encoding.md R73, R74; 70_reset_and_hazards.md R152, R153: a label the assembler resolves through
USING is at most 4095 bytes above the value told for the base register taken, which is not register 0;
every BC with that operand forms the label's address in a state where that register holds that value; and
an instruction with that operand, on a condition code its mask selects, goes to the label's address if
that is even, valid and of a matching key. Which base register is taken is the model's choice (log entry
8). The address is one of the address space, so that the sum does not wrap. -/
def Obligations.ResolvedLabelIsTheBranchTarget : Prop :=
  ∀ (bases : List (RegNum × Nat)) (address : Nat) (op : Operand) (s : State),
    usingOperand bases address = some op → address < 2 ^ s.cfg.addrBits →
    (∀ r v, (r, v) ∈ bases → readReg s r = some v) →
    op.wellFormed = true ∧ op.base ≠ 0 ∧ op.idx = 0 ∧
    formTarget s (BitVec.ofNat 4 op.idx) (BitVec.ofNat 4 op.base) (BitVec.ofNat 12 op.offset) = .ok address ∧
    ∀ (i : Instr) (mask : Mask),
      expand i = .bc mask (BitVec.ofNat 4 op.idx) (BitVec.ofNat 4 op.base) (BitVec.ofNat 12 op.offset) →
      mask.getLsbD (3 - s.psw.cc.val) = true → address % 2 = 0 → validAt s address = true →
      (s.cfg.protectFetch = true → keyOK s address = true) →
      exec i s = .next (setPc s address)

/-! ### Frames, invariants and runs -/

/-- 40_branch_on_condition.md R88: what no instruction changes when it completes: registers, condition
code, process key, every byte of storage, every storage key, the parameters. -/
def Obligations.FrameOfEveryInstruction : Prop :=
  ∀ (i : Instr) (s t : State), exec i s = .next t →
    (∀ r, readReg t r = readReg s r ∧ regAt t r = regAt s r) ∧ t.regs = s.regs ∧ t.noValue = s.noValue ∧
    t.psw.cc = s.psw.cc ∧ t.psw.key = s.psw.key ∧
    (∀ a, readByte t.mem a = readByte s.mem a) ∧ t.mem = s.mem ∧
    (∀ a, keyAt t a = keyAt s a) ∧ t.storageKeys = s.storageKeys ∧ t.cfg = s.cfg

/-- 10_state.md R22, R26, R32, R34, R35 and 20_memory.md R42 (the spec's derivations): a step changes
nothing but the instruction address. The fetched word is a BC, and the address becomes the next
instruction's if that BC does not branch, else the target that its fields form, which is even, valid and
of a key the process may branch to. What selects the branch at a base field of 0 is the spec's setting D5
(log entry 10), and the next address wraps by D4 (log entry 11). -/
def Obligations.StepChangesOnlyTheInstructionAddress : Prop :=
  ∀ s t : State, step s = .next t →
    t = setPc s t.psw.pc ∧
    ∃ mask idx base offset, fetch s = .ok (encode (.bc mask idx base offset)) ∧
      if mask.getLsbD (3 - s.psw.cc.val) = true ∧ (base ≠ 0 ∨ s.cfg.base0Mode = .zeroBase) then
        formTarget s idx base offset = .ok t.psw.pc ∧ t.psw.pc % 2 = 0 ∧ validAt s t.psw.pc = true ∧
          (s.cfg.protectFetch = true → keyOK s t.psw.pc = true)
      else t.psw.pc = nextAddress s

/-- 10_state.md R27: after a step `pc` is even, whatever the state before it. -/
def Obligations.StepLeavesAnEvenInstructionAddress : Prop :=
  ∀ s t : State, step s = .next t → t.psw.pc % 2 = 0

/-- 10_state.md R20, R25, R28, R34, R35: the widths and forms of all the state's fields (State.Inv) hold
after a step if they held before it. -/
def Obligations.StepKeepsTheInvariant : Prop :=
  ∀ s t : State, State.Inv s → step s = .next t → State.Inv t

/-- The model's reset state meets the invariant (log entries 2 to 5). -/
def Obligations.ResetMeetsTheInvariant : Prop := State.Inv State.reset

/-- The model's reset values (log entries 2 to 5; the spec gives none, 10_state.md R36): an address has 24
bits, a register 32 and a key 4 (PRESUMED, log entry 2); every register has the value 0, `pc`, `cc`, `key`
and every storage key are 0, every byte reads 0, every address is valid and none an exit, and the switches
are the spec's settings. -/
def Obligations.ResetValuesAreTheLoggedOnes : Prop :=
  (∀ r, readReg State.reset r = some 0) ∧ State.reset.psw = ⟨0, 0, 0⟩ ∧
  (∀ a, readByte State.reset.mem a = 0 ∧ keyAt State.reset a = 0 ∧ validAt State.reset a = true ∧
    exitAt State.reset a = false) ∧
  State.reset.cfg.addrBits = 24 ∧ State.reset.cfg.grBits = 32 ∧ State.reset.cfg.keyBits = 4 ∧
  State.reset.cfg.protectFetch = true ∧ State.reset.cfg.base0Mode = .sourceNoop

/-- 70_reset_and_hazards.md R157, 10_state.md R33: wherever a run stands, after any number of steps and
however it ended, only `pc` differs from the launch state. -/
def Obligations.RunChangesOnlyTheInstructionAddress : Prop :=
  ∀ (n : Nat) (s : State), (runFor n s).state = setPc s (runFor n s).state.psw.pc

/-- 70_reset_and_hazards.md R156 (a decision of the spec, D18): a run ends successfully exactly where the
exit predicate holds, checked before the fetch, so the bytes there may be anything. -/
def Obligations.RunExitsExactlyAtAnExitAddress : Prop :=
  (∀ n s, exitAt s s.psw.pc = true → runFor n s = .exited s) ∧
  (∀ n s u, runFor n s = .exited u → exitAt u u.psw.pc = true)

/-- 60_exceptions.md R135, R137; 30_encoding.md R70 (decisions of the spec, D8 and D12): an end of a run is
final. A fault or a refusal is that of the step at the state it stands in, which is no exit, and no further
step changes it. -/
def Obligations.EndOfARunIsFinal : Prop :=
  (∀ n s u f, runFor n s = .faulted u f →
    step u = .fault f ∧ exitAt u u.psw.pc = false ∧ ∀ k, runFor (n + k) s = .faulted u f) ∧
  (∀ n s u r, runFor n s = .refused u r →
    step u = .refused r ∧ exitAt u u.psw.pc = false ∧ ∀ k, runFor (n + k) s = .refused u r) ∧
  (∀ n s u, runFor n s = .exited u → ∀ k, runFor (n + k) s = .exited u)

/-- 70_reset_and_hazards.md R151 (`NoFault`), 60_exceptions.md R135 (a decision of the spec, D8: the fault
mark is never cleared): a run that stands at no fault and no refusal stood at none before. -/
def Obligations.NoFaultHoldsOfEveryShorterRun : Prop :=
  ∀ (n k : Nat) (s : State), NoFault (runFor (n + k) s) → NoFault (runFor n s)

/-- 70_reset_and_hazards.md R160 (the spec's derivation): a branch to itself repeats for ever; it is neither
a fault nor a refusal, and the run is not cut short. -/
def Obligations.BranchToItselfRunsForEver : Prop :=
  ∀ (i : Instr) (mask : Mask) (idx base : RegNum) (offset : Offset) (s : State),
    expand i = .bc mask idx base offset → fetch s = .ok (encode i) →
    mask.getLsbD (3 - s.psw.cc.val) = true → BranchReady s idx base offset s.psw.pc →
    exitAt s s.psw.pc = false →
    ∀ n, runFor n s = .running s
end

