-- ==== Sys2Proof/Laws/AddressMap.lean ====
section
/-! SUPPORT. An `AddressMap` is no restriction: every function on a finite address space is one. -/

namespace Sys2Proof.Machine

/-- The map that lists every address below `n`, counting up from `start`. -/
def listing {α : Type} (f : Nat → α) (start : Nat) : Nat → List (Nat × α)
  | 0 => []
  | n + 1 => (start, f start) :: listing f (start + 1) n

theorem valueFrom_listing_of_lt {α : Type} (f : Nat → α) (v : α) (n : Nat) :
    ∀ start a, a < start → valueFrom v (listing f start n) a = v := by
  intro start a h
  cases n with
  | zero => rfl
  | succ n => simp [listing, valueFrom, h]

theorem valueFrom_listing {α : Type} (f : Nat → α) (n : Nat) :
    ∀ v start a, start ≤ a → a < start + n → valueFrom v (listing f start n) a = f a := by
  induction n with
  | zero => intro v start a h1 h2; omega
  | succ n ih =>
    intro v start a h1 h2
    rw [listing, valueFrom, if_neg (by omega)]
    by_cases h : a = start
    · subst h; exact valueFrom_listing_of_lt f _ n _ _ (by omega)
    · exact ih _ _ _ (by omega) (by omega)

/-- Every function on the addresses below `n` is an address map: `Valid`, `K` and `IsExit` are left as
open as the spec leaves them. -/
theorem addressMap_complete {α : Type} (f : Nat → α) (n : Nat) :
    ∃ m : AddressMap α, ∀ a < n, mapAt m a = f a :=
  ⟨⟨f 0, listing f 0 n⟩, fun a h => valueFrom_listing f n _ 0 a (Nat.zero_le a) (by omega)⟩

end Sys2Proof.Machine
end

