-- ==== Sys2Proof/Laws/Assembler.lean ====
section
/-! SUPPORT. What the assembler's shared operations can answer. -/

namespace Sys2Proof.Machine

/-- A statement with an explicit operand, or with the one-value form, assembles exactly when it is in
range. -/
theorem assemble_isSome_iff (symbols : Symbols) (st : Statement)
    (h : ∀ name, (∀ m, st ≠ .bc m (.label name)) ∧ ∀ mn, st ≠ .ext mn (.label name)) :
    (assemble symbols st).isSome = true ↔ st.wellFormed = true := by
  cases st with
  | bc m t =>
    cases t with
    | explicit op =>
      by_cases hc : m ≤ 15 ∧ op.wellFormed = true <;>
        simp_all [assemble, resolveTarget, Statement.wellFormed, TargetForm.wellFormed]
    | single o v =>
      by_cases hv : v = 0 <;> by_cases hc : m ≤ 15 <;> by_cases ho : o ≤ 4095 <;>
        simp_all [assemble, resolveTarget, Statement.wellFormed, TargetForm.wellFormed, Operand.wellFormed]
    | label n => exact absurd rfl ((h n).1 m)
  | ext mn t =>
    cases t with
    | explicit op =>
      by_cases hc : op.wellFormed = true <;>
        simp_all [assemble, resolveTarget, Statement.wellFormed, TargetForm.wellFormed]
    | single o v =>
      by_cases hv : v = 0 <;> by_cases ho : o ≤ 4095 <;>
        simp_all [assemble, resolveTarget, Statement.wellFormed, TargetForm.wellFormed, Operand.wellFormed]
    | label n => exact absurd rfl ((h n).2 mn)

/-- A label resolved through USING is its distance above the value of a base register other than 0. -/
theorem usingOperand_eq_some {bases : List (RegNum × Nat)} {address : Nat} {op : Operand}
    (h : usingOperand bases address = some op) :
    ∃ r v, (r, v) ∈ bases ∧ r ≠ 0 ∧ v ≤ address ∧ address - v ≤ 4095 ∧ op = ⟨address - v, 0, r.toNat⟩ := by
  induction bases with
  | nil => cases h
  | cons c rest ih =>
    obtain ⟨r, v⟩ := c
    unfold usingOperand at h
    split at h
    · rename_i hc; cases h; exact ⟨r, v, by simp, hc.1, hc.2.1, hc.2.2, rfl⟩
    · obtain ⟨r', v', h1, h2⟩ := ih h
      exact ⟨r', v', by simp [h1], h2⟩

end Sys2Proof.Machine
end

