-- ==== Sys2Proof/Laws/State.lean ====
section
/-! SUPPORT. One lemma per field for each update of the state: the named operations are read off without
unfolding a record. -/

namespace Sys2Proof.Machine

@[simp] theorem setPc_pc (s : State) (t : Nat) : (setPc s t).psw.pc = t := rfl
@[simp] theorem setPc_cc (s : State) (t : Nat) : (setPc s t).psw.cc = s.psw.cc := rfl
@[simp] theorem setPc_key (s : State) (t : Nat) : (setPc s t).psw.key = s.psw.key := rfl
@[simp] theorem setPc_regs (s : State) (t : Nat) : (setPc s t).regs = s.regs := rfl
@[simp] theorem setPc_noValue (s : State) (t : Nat) : (setPc s t).noValue = s.noValue := rfl
@[simp] theorem setPc_mem (s : State) (t : Nat) : (setPc s t).mem = s.mem := rfl
@[simp] theorem setPc_storageKeys (s : State) (t : Nat) : (setPc s t).storageKeys = s.storageKeys := rfl
@[simp] theorem setPc_cfg (s : State) (t : Nat) : (setPc s t).cfg = s.cfg := rfl
@[simp] theorem setPc_setPc (s : State) (t u : Nat) : setPc (setPc s t) u = setPc s u := rfl
@[simp] theorem setPc_self (s : State) : setPc s s.psw.pc = s := rfl

@[simp] theorem regAt_setPc (s : State) (t : Nat) (r : RegNum) : regAt (setPc s t) r = regAt s r := rfl
@[simp] theorem readReg_setPc (s : State) (t : Nat) (r : RegNum) : readReg (setPc s t) r = readReg s r := rfl
@[simp] theorem validAt_setPc (s : State) (t a : Nat) : validAt (setPc s t) a = validAt s a := rfl
@[simp] theorem keyAt_setPc (s : State) (t a : Nat) : keyAt (setPc s t) a = keyAt s a := rfl
@[simp] theorem keyOK_setPc (s : State) (t a : Nat) : keyOK (setPc s t) a = keyOK s a := rfl
@[simp] theorem exitAt_setPc (s : State) (t a : Nat) : exitAt (setPc s t) a = exitAt s a := rfl

@[simp] theorem placeAtPc_regs (s : State) (bs : List Byte) : (placeAtPc s bs).regs = s.regs := rfl
@[simp] theorem placeAtPc_noValue (s : State) (bs : List Byte) : (placeAtPc s bs).noValue = s.noValue := rfl
@[simp] theorem placeAtPc_psw (s : State) (bs : List Byte) : (placeAtPc s bs).psw = s.psw := rfl
@[simp] theorem placeAtPc_storageKeys (s : State) (bs : List Byte) :
    (placeAtPc s bs).storageKeys = s.storageKeys := rfl
@[simp] theorem placeAtPc_cfg (s : State) (bs : List Byte) : (placeAtPc s bs).cfg = s.cfg := rfl
@[simp] theorem placeAtPc_mem (s : State) (bs : List Byte) :
    (placeAtPc s bs).mem = memWrite s.cfg.addrBits s.mem s.psw.pc bs := rfl

@[simp] theorem writeReg_psw (s : State) (r : RegNum) (v : Nat) : (writeReg s r v).psw = s.psw := rfl
@[simp] theorem writeReg_mem (s : State) (r : RegNum) (v : Nat) : (writeReg s r v).mem = s.mem := rfl
@[simp] theorem writeReg_storageKeys (s : State) (r : RegNum) (v : Nat) :
    (writeReg s r v).storageKeys = s.storageKeys := rfl
@[simp] theorem writeReg_cfg (s : State) (r : RegNum) (v : Nat) : (writeReg s r v).cfg = s.cfg := rfl

/-- A written register holds the value, reduced to the register's width. -/
theorem readReg_writeReg_same (s : State) (r : RegNum) (v : Nat) :
    readReg (writeReg s r v) r = some (trunc s.cfg.grBits v) := by
  simp [readReg, writeReg, regAt]

/-- Writing a register leaves every other register as it was. -/
theorem readReg_writeReg_other (s : State) {r q : RegNum} (v : Nat) (h : q ≠ r) :
    readReg (writeReg s r v) q = readReg s q := by
  have hn : r.toNat ≠ q.toNat := fun e => h (BitVec.eq_of_toNat_eq e.symm)
  simp [readReg, writeReg, regAt, Vector.getElem_set_ne, hn, h]

/-- A state with every register valued reads every register. -/
theorem readReg_of_noValue_nil {s : State} (h : s.noValue = []) (r : RegNum) :
    readReg s r = some (regAt s r) := by
  simp [readReg, h]

end Sys2Proof.Machine
end

