-- ==== Sys2Proof/Laws/Branch.lean ====
section
/-! SUPPORT. What each shared operation can answer, said once: the checks, the formation of a target,
BC, and the call of BC behind every instruction. -/

namespace Sys2Proof.Machine

/-- An address check answers nothing exactly when the address is even and every address of the access
is valid and, under `PROTECT_FETCH`, of a matching key. -/
theorem checkAddresses_eq_none {s : State} {against : Access} {a : Nat} {l : List Nat} :
    checkAddresses s against a l = none ↔
      a % 2 = 0 ∧ ∀ x ∈ l, validAt s x = true ∧ (s.cfg.protectFetch = true → keyOK s x = true) := by
  unfold checkAddresses
  split
  · rename_i h; simp [h]
  · rename_i h
    have h0 : a % 2 = 0 := by omega
    split
    · rename_i bad hbad
      have hm := List.mem_of_find?_eq_some hbad
      have hv := List.find?_some hbad
      exact iff_of_false (by simp) fun hc => by simp [(hc.2 bad hm).1] at hv
    · rename_i hnone
      have hval : ∀ x ∈ l, validAt s x = true := by
        intro x hx
        simpa using List.find?_eq_none.1 hnone x hx
      split
      · rename_i bad hbad
        have hm := List.mem_of_find?_eq_some hbad
        have hv := List.find?_some hbad
        simp only [Bool.and_eq_true, Bool.not_eq_true'] at hv
        exact iff_of_false (by simp) fun hc => by simp [(hc.2 bad hm).2 hv.1] at hv
      · rename_i hkey
        refine ⟨fun _ => ⟨h0, fun x hx => ⟨hval x hx, fun hp => ?_⟩⟩, fun _ => rfl⟩
        have := List.find?_eq_none.1 hkey x hx
        simpa [hp] using this

/-- The check of one address, as the chain of conditions in its order. -/
theorem checkAddresses_single (s : State) (against : Access) (t : Nat) :
    checkAddresses s against t [t] =
      if t % 2 = 1 then some (.operationException .oddTarget against s.psw.pc t)
      else if validAt s t = false then some (.operationException .invalidTarget against s.psw.pc t)
      else if s.cfg.protectFetch = true ∧ ¬ (s.psw.key = 0 ∨ keyAt s t = s.psw.key) then
        some (.memoryProtectException against s.psw.pc t (keyAt s t) s.psw.key)
      else none := by
  unfold checkAddresses keyOK
  split
  · rfl
  · cases hv : validAt s t <;> cases hp : s.cfg.protectFetch <;> by_cases hk : s.psw.key = 0 <;>
      by_cases hq : keyAt s t = s.psw.key <;> simp [hv, hk, hq]

/-- An address check answers an exception against the access it was made for: never a register's
fault, and a key's only under `PROTECT_FETCH` for a process whose key is not 0. -/
theorem checkAddresses_eq_some {s : State} {against : Access} {a : Nat} {l : List Nat} {f : Fault}
    (h : checkAddresses s against a l = some f) :
    (∃ cause t, f = .operationException cause against s.psw.pc t) ∨
    (s.cfg.protectFetch = true ∧ s.psw.key ≠ 0 ∧
      ∃ t, f = .memoryProtectException against s.psw.pc t (keyAt s t) s.psw.key) := by
  unfold checkAddresses at h
  split at h
  · cases h; exact .inl ⟨_, _, rfl⟩
  · split at h
    · cases h; exact .inl ⟨_, _, rfl⟩
    · split at h
      · rename_i bad hb
        have := List.find?_some hb
        simp only [keyOK, Bool.and_eq_true, Bool.not_eq_true', Bool.or_eq_false_iff, beq_eq_false_iff_ne] at this
        cases h
        exact .inr ⟨this.1, this.2.1, _, rfl⟩
      · cases h

/-- A fetch succeeds exactly from an even `pc` whose four addresses pass, and then answers the word at
`pc`. -/
theorem fetch_ok_iff {s : State} {w : InstrWord} :
    fetch s = .ok w ↔ EvenPc s ∧ FetchablePc s ∧
      w = wordOfBytes (memRead s.cfg.addrBits s.mem s.psw.pc 4) := by
  unfold fetch fetchFault
  cases h : checkAddresses s .fetch s.psw.pc (fetchAddresses s) with
  | some f =>
    have : ¬ (EvenPc s ∧ FetchablePc s) := fun hc => by
      rw [checkAddresses_eq_none.2 hc] at h
      cases h
    constructor
    · rintro ⟨⟩
    · rintro ⟨h1, h2, _⟩; exact absurd ⟨h1, h2⟩ this
  | none =>
    have := checkAddresses_eq_none.1 h
    constructor
    · intro hw; cases hw; exact ⟨this.1, this.2, rfl⟩
    · rintro ⟨_, _, rfl⟩; rfl

/-- The word at `pc` is read from the four addresses of the fetch. -/
theorem memRead_four (addrBits : Nat) (m : Memory) (a : Nat) :
    memRead addrBits m a 4 = [readByte m a, readByte m (trunc addrBits (a + 1)),
      readByte m (trunc addrBits (a + 2)), readByte m (trunc addrBits (a + 3))] := by
  simp [memRead, trunc, Nat.add_assoc]

/-! ### Registers in the sum -/

theorem registerOperand_zero (s : State) : registerOperand s 0 = .ok 0 := rfl

theorem registerOperand_of_value {s : State} {r : RegNum} {v : Nat} (h : r ≠ 0)
    (hv : readReg s r = some v) : registerOperand s r = .ok v := by
  rw [registerOperand, if_neg h, hv]

theorem registerOperand_of_noValue {s : State} {r : RegNum} (h : r ≠ 0) (hv : readReg s r = none) :
    registerOperand s r = .error (.unwrittenRegister r) := by
  rw [registerOperand, if_neg h, hv]

theorem readReg_eq_none {s : State} {r : RegNum} : readReg s r = none ↔ r ∈ s.noValue := by
  simp [readReg]

theorem readReg_eq_some {s : State} {r : RegNum} {v : Nat} :
    readReg s r = some v ↔ r ∉ s.noValue ∧ v = regAt s r := by
  simp [readReg, eq_comm]

/-- A register field fails only by naming a register that holds no value. -/
theorem registerOperand_error {s : State} {r : RegNum} {f : Fault}
    (h : registerOperand s r = .error f) :
    f = .unwrittenRegister r ∧ r ≠ 0 ∧ readReg s r = none := by
  unfold registerOperand at h
  split at h
  · cases h
  · rename_i hr
    split at h
    · cases h
    · rename_i hv; cases h; exact ⟨rfl, hr, hv⟩

/-- A register field that has a value contributes 0 or the register's contents. -/
theorem registerOperand_ok {s : State} {r : RegNum} {v : Nat} (h : registerOperand s r = .ok v) :
    (r = 0 ∧ v = 0) ∨ (r ≠ 0 ∧ r ∉ s.noValue ∧ v = regAt s r) := by
  unfold registerOperand at h
  split at h
  · rename_i hr; cases h; exact .inl ⟨hr, rfl⟩
  · rename_i hr
    split at h
    · rename_i w hw
      cases h
      exact .inr ⟨hr, readReg_eq_some.1 hw⟩
    · cases h

/-- A formed target is the sum of what the two fields contribute. -/
theorem formTarget_ok {s : State} {idx base : RegNum} {offset : Offset} {t : Nat} :
    formTarget s idx base offset = .ok t ↔ ∃ bv iv, registerOperand s base = .ok bv ∧
      registerOperand s idx = .ok iv ∧ t = targetAddress s.cfg.addrBits bv iv offset := by
  unfold formTarget
  cases registerOperand s base <;> cases registerOperand s idx <;> simp [eq_comm]

/-- Forming a target fails only on a register it reads that holds no value. -/
theorem formTarget_error {s : State} {idx base : RegNum} {offset : Offset} {f : Fault}
    (h : formTarget s idx base offset = .error f) :
    ∃ r, f = .unwrittenRegister r ∧ r ∈ s.noValue ∧ r ≠ 0 ∧ (r = base ∨ r = idx) := by
  unfold formTarget at h
  split at h
  · rename_i g hg
    cases h
    obtain ⟨rfl, h0, hn⟩ := registerOperand_error hg
    exact ⟨_, rfl, readReg_eq_none.1 hn, h0, .inl rfl⟩
  · split at h
    · rename_i g hg
      cases h
      obtain ⟨rfl, h0, hn⟩ := registerOperand_error hg
      exact ⟨_, rfl, readReg_eq_none.1 hn, h0, .inr rfl⟩
    · cases h

/-- Where a register it reads holds no value, forming a target fails on a register. -/
theorem formTarget_of_noValue {s : State} {idx base r : RegNum} (offset : Offset)
    (h0 : r ≠ 0) (hr : r = base ∨ r = idx) (hn : readReg s r = none) :
    ∃ q, formTarget s idx base offset = .error (.unwrittenRegister q) := by
  unfold formTarget
  cases hb : registerOperand s base with
  | error f => exact ⟨base, by rw [(registerOperand_error hb).1]⟩
  | ok v =>
    rcases hr with rfl | rfl
    · rw [registerOperand_of_noValue h0 hn] at hb; cases hb
    · exact ⟨r, by rw [registerOperand_of_noValue h0 hn]⟩

/-- A formed target is an address. -/
theorem formTarget_lt {s : State} {idx base : RegNum} {offset : Offset} {t : Nat}
    (h : formTarget s idx base offset = .ok t) : t < 2 ^ s.cfg.addrBits := by
  obtain ⟨bv, iv, _, _, rfl⟩ := formTarget_ok.1 h
  exact Nat.mod_lt _ (Nat.two_pow_pos _)

/-! ### BC -/

/-- A branch about to be taken answers a next state exactly by going to a target it may branch to. -/
theorem takeBranch_next {s u : State} {idx base : RegNum} {offset : Offset}
    (h : takeBranch s idx base offset = .next u) :
    ∃ t, formTarget s idx base offset = .ok t ∧ t % 2 = 0 ∧ validAt s t = true ∧
      (s.cfg.protectFetch = true → keyOK s t = true) ∧ u = setPc s t := by
  unfold takeBranch at h
  split at h
  · cases h
  · rename_i t ht
    split at h
    · cases h
    · rename_i hc
      have hc' := checkAddresses_eq_none.1 hc
      cases h
      exact ⟨t, ht, hc'.1, (hc'.2 t (by simp)).1, (hc'.2 t (by simp)).2, rfl⟩

/-- A branch about to be taken never answers a refusal. -/
theorem takeBranch_not_refused {s : State} {idx base : RegNum} {offset : Offset} {r : Refusal} :
    takeBranch s idx base offset ≠ .refused r := by
  unfold takeBranch raise
  split
  · simp
  · split <;> simp

/-- Where a branch may be taken, it is. -/
theorem takeBranch_of_ready {s : State} {idx base : RegNum} {offset : Offset} {t : Nat}
    (h : BranchReady s idx base offset t) : takeBranch s idx base offset = .next (setPc s t) := by
  unfold takeBranch
  rw [h.target]
  have : checkAddresses s .branch t [t] = none :=
    checkAddresses_eq_none.2 ⟨h.even, by simpa using ⟨h.valid, h.key_ok⟩⟩
  simp [this]

/-- Every instruction's meaning is BC with the mask of its expansion. -/
theorem exec_eq_branchOnCondition (i : Instr) (s : State) :
    ∃ m x b o, expand i = .bc m x b o ∧ exec i s = branchOnCondition m x b o s := by
  cases i <;> exact ⟨_, _, _, _, rfl, rfl⟩

/-- An instruction is BC with the fields of its expansion. -/
theorem exec_of_expand {i : Instr} {m : Mask} {x b : RegNum} {o : Offset}
    (h : expand i = .bc m x b o) (s : State) : exec i s = branchOnCondition m x b o s := by
  obtain ⟨m', x', b', o', h', he⟩ := exec_eq_branchOnCondition i s
  rw [h] at h'
  cases h'
  exact he

/-- When BC is about to take its branch. -/
theorem branchSelected_iff (s : State) (m : Mask) (b : RegNum) :
    branchSelected s m b = true ↔
      m.getLsbD (3 - s.psw.cc.val) = true ∧ (b ≠ 0 ∨ s.cfg.base0Mode = .zeroBase) := by
  simp [branchSelected, ccBit, or_comm]

/-- A BC whose mask bit is 1, in a state where a branch may be taken, takes it. -/
theorem branchOnCondition_of_ready {s : State} {m : Mask} {idx base : RegNum} {offset : Offset} {t : Nat}
    (hm : m.getLsbD (3 - s.psw.cc.val) = true) (h : BranchReady s idx base offset t) :
    branchOnCondition m idx base offset s = .next (setPc s t) := by
  rw [branchOnCondition, if_pos ((branchSelected_iff s m base).2 ⟨hm, h.base_serves⟩),
    takeBranch_of_ready h]

/-- A BC whose mask bit is 0 goes to the next instruction. -/
theorem branchOnCondition_of_not_selected {s : State} {m : Mask} {idx base : RegNum} {offset : Offset}
    (hm : m.getLsbD (3 - s.psw.cc.val) = false) :
    branchOnCondition m idx base offset s = .next (setPc s (nextAddress s)) := by
  rw [branchOnCondition, if_neg (by rw [branchSelected_iff]; simp [hm])]
  rfl

/-- An instruction that completes either goes to the next instruction or to a target it may branch to;
in both cases it changes `pc` alone. -/
theorem branchOnCondition_next {s u : State} {m : Mask} {idx base : RegNum} {offset : Offset}
    (h : branchOnCondition m idx base offset s = .next u) :
    (branchSelected s m base = false ∧ u = setPc s (nextAddress s)) ∨
    (branchSelected s m base = true ∧ ∃ t, formTarget s idx base offset = .ok t ∧ t % 2 = 0 ∧
      validAt s t = true ∧ (s.cfg.protectFetch = true → keyOK s t = true) ∧ u = setPc s t) := by
  unfold branchOnCondition at h
  split at h
  · rename_i hs; exact .inr ⟨hs, takeBranch_next h⟩
  · rename_i hs
    cases h
    exact .inl ⟨by simpa using hs, rfl⟩

/-- BC faults only when about to branch, on a register it reads that holds no value or on a check of its
target. -/
theorem branchOnCondition_fault {s : State} {m : Mask} {idx base : RegNum} {offset : Offset} {f : Fault}
    (h : branchOnCondition m idx base offset s = .fault f) :
    branchSelected s m base = true ∧
      ((∃ r, f = .unwrittenRegister r ∧ r ∈ s.noValue ∧ r ≠ 0 ∧ (r = base ∨ r = idx)) ∨
      ∃ t, checkAddresses s .branch t [t] = some f) := by
  unfold branchOnCondition takeBranch raise at h
  split at h
  · rename_i hs
    refine ⟨hs, ?_⟩
    split at h
    · rename_i hf; cases h; exact .inl (formTarget_error hf)
    · split at h
      · rename_i hc; cases h; exact .inr ⟨_, hc⟩
      · cases h
  · cases h

/-- An instruction faults only on a register that holds no value or on a check of its target. -/
theorem exec_fault {i : Instr} {s : State} {f : Fault} (h : exec i s = .fault f) :
    (∃ r, f = .unwrittenRegister r ∧ r ∈ s.noValue) ∨
    ∃ t, checkAddresses s .branch t [t] = some f := by
  obtain ⟨m, x, b, o, _, he⟩ := exec_eq_branchOnCondition i s
  rw [he] at h
  rcases (branchOnCondition_fault h).2 with ⟨r, hf, hr, _⟩ | hc
  · exact .inl ⟨r, hf, hr⟩
  · exact .inr hc

/-- A step faults only in its fetch or in the instruction it executes. -/
theorem step_fault {s : State} {f : Fault} (h : step s = .fault f) :
    fetchFault s = some f ∨ ∃ i, exec i s = .fault f := by
  unfold step fetch at h
  cases hf : fetchFault s with
  | some g => simp only [hf, raise] at h; cases h; exact .inl rfl
  | none =>
    simp only [hf] at h
    split at h
    · exact .inr ⟨_, h⟩
    · cases h

/-- A step that completes executes the instruction decoded from a fetch that passed. -/
theorem step_next {s u : State} (h : step s = .next u) :
    ∃ w i, fetch s = .ok w ∧ decodeWord w = .instr i ∧ exec i s = .next u := by
  unfold step at h
  split at h
  · cases h
  · rename_i w hw
    split at h
    · rename_i i hi; exact ⟨w, i, hw, hi, h⟩
    · cases h

/-- A step faults on a register only where the BC at `pc`, about to branch, reads that register and it
holds no value. -/
theorem step_unwrittenRegister {s : State} {r : RegNum} (h : step s = .fault (.unwrittenRegister r)) :
    ReadByNextBranch s r ∧ readReg s r = none := by
  unfold step at h
  split at h
  · rename_i f hf
    unfold fetch at hf
    split at hf
    · rename_i g hg
      cases hf
      cases h
      rcases checkAddresses_eq_some hg with ⟨_, _, h'⟩ | ⟨_, _, _, h'⟩ <;> cases h'
    · cases hf
  · rename_i w hw
    split at h
    · rename_i i hi
      obtain ⟨hop, rfl⟩ : w.extractLsb' 24 8 = 0x47#8 ∧ _ := by
        unfold decodeWord at hi
        split at hi
        · exact ⟨by assumption, (Decoded.instr.inj hi).symm⟩
        · cases hi
      obtain ⟨hs, ⟨r', he, hn, h0, hr⟩ | ⟨t, ht⟩⟩ :=
        branchOnCondition_fault (h : branchOnCondition _ _ _ _ s = _)
      · cases he
        exact ⟨⟨w, _, _, _, _, hw, hi, hs, h0, hr⟩, readReg_eq_none.2 hn⟩
      · rcases checkAddresses_eq_some ht with ⟨_, _, h'⟩ | ⟨_, _, _, h'⟩ <;> cases h'
    · cases h

/-- Where the BC at `pc`, about to branch, reads a register that holds no value, the step faults on a
register. -/
theorem step_of_readByNextBranch {s : State} {r : RegNum} (h : ReadByNextBranch s r)
    (hn : readReg s r = none) : ∃ q, step s = .fault (.unwrittenRegister q) := by
  obtain ⟨w, m, x, b, o, hf, hd, hs, h0, hr⟩ := h
  obtain ⟨q, hq⟩ := formTarget_of_noValue o h0 hr hn
  refine ⟨q, ?_⟩
  simp only [step, hf, hd]
  show branchOnCondition m x b o s = _
  simp only [branchOnCondition, hs, if_true, takeBranch, hq, raise]

end Sys2Proof.Machine
end

