-- ==== Sys2Proof/Laws/Memory.lean ====
section
/-! SUPPORT. Storage: a read after a write, the canonical form kept by every operation, and equal
contents as equal data. -/

namespace Sys2Proof.Machine

/-- An address below every listed one reads as unlisted. -/
theorem readByte_of_wfFrom_lt {m : Memory} :
    ∀ {lo a : Nat}, Memory.wfFrom lo m = true → a < lo → readByte m a = Config.unlistedByte := by
  induction m with
  | nil => intro lo a _ _; rfl
  | cons c rest ih =>
    obtain ⟨b, v⟩ := c
    intro lo a h ha
    simp only [Memory.wfFrom, Bool.and_eq_true, decide_eq_true_eq] at h
    rw [readByte, if_neg (by omega)]
    exact ih h.2 (by omega)

/-- A smaller bound is a weaker condition. -/
theorem wfFrom_mono {m : Memory} {lo hi : Nat} (h : lo ≤ hi) (w : Memory.wfFrom hi m = true) :
    Memory.wfFrom lo m = true := by
  cases m with
  | nil => rfl
  | cons c rest =>
    simp only [Memory.wfFrom, Bool.and_eq_true, decide_eq_true_eq] at w ⊢
    exact ⟨⟨by omega, w.1.2⟩, w.2⟩

/-- A read after a write to the same address gives the value written. -/
theorem readByte_writeByte_same {m : Memory} :
    ∀ {lo a : Nat} (v : Byte), Memory.wfFrom lo m = true → readByte (writeByte m a v) a = v := by
  induction m with
  | nil =>
    intro lo a v _
    by_cases hv : v = Config.unlistedByte <;> simp [writeByte, readByte, hv]
  | cons c rest ih =>
    obtain ⟨b, w⟩ := c
    intro lo a v h
    have hrest := h
    simp only [Memory.wfFrom, Bool.and_eq_true, decide_eq_true_eq] at hrest
    unfold writeByte
    split
    · split
      · rename_i hlt hv
        rw [hv]
        exact readByte_of_wfFrom_lt (lo := b) (by
          simp only [Memory.wfFrom, Bool.and_eq_true, decide_eq_true_eq]
          exact ⟨⟨Nat.le_refl b, hrest.1.2⟩, hrest.2⟩) hlt
      · simp [readByte]
    · split
      · rename_i hlt heq
        split
        · rename_i hv
          rw [hv]
          exact readByte_of_wfFrom_lt hrest.2 (by omega)
        · simp [readByte]
      · rename_i hlt hne
        rw [readByte, if_neg (fun e => hne e.symm)]
        exact ih v hrest.2

/-- A write leaves every other address as it was. -/
theorem readByte_writeByte_other {m : Memory} {a b : Nat} (v : Byte) (h : b ≠ a) :
    readByte (writeByte m a v) b = readByte m b := by
  induction m with
  | nil => by_cases hv : v = Config.unlistedByte <;> simp [writeByte, readByte, hv, Ne.symm h]
  | cons c rest ih =>
    obtain ⟨x, w⟩ := c
    unfold writeByte
    split
    · split
      · rfl
      · simp [readByte, Ne.symm h]
    · split
      · rename_i hlt heq
        subst heq
        split <;> simp [readByte, Ne.symm h]
      · simp [readByte, ih]

theorem wfFrom_writeByte {m : Memory} :
    ∀ {lo a : Nat} (v : Byte), Memory.wfFrom lo m = true → lo ≤ a →
      Memory.wfFrom lo (writeByte m a v) = true := by
  induction m with
  | nil =>
    intro lo a v _ ha
    by_cases hv : v = Config.unlistedByte <;> simp [writeByte, Memory.wfFrom, hv, ha]
  | cons c rest ih =>
    obtain ⟨b, w⟩ := c
    intro lo a v h ha
    have hrest := h
    simp only [Memory.wfFrom, Bool.and_eq_true, decide_eq_true_eq] at hrest
    unfold writeByte
    split
    · rename_i hlt
      split
      · exact h
      · rename_i hv
        simp only [Memory.wfFrom, Bool.and_eq_true, decide_eq_true_eq]
        exact ⟨⟨ha, hv⟩, ⟨⟨hlt, hrest.1.2⟩, hrest.2⟩⟩
    · split
      · rename_i hlt heq
        subst heq
        split
        · exact wfFrom_mono (by omega) hrest.2
        · rename_i hv
          simp only [Memory.wfFrom, Bool.and_eq_true, decide_eq_true_eq]
          exact ⟨⟨ha, hv⟩, hrest.2⟩
      · rename_i hlt hne
        simp only [Memory.wfFrom, Bool.and_eq_true, decide_eq_true_eq]
        exact ⟨hrest.1, ih v hrest.2 (by omega)⟩

/-- Writing a byte keeps the canonical form. -/
theorem wf_writeByte {m : Memory} (a : Nat) (v : Byte) (h : Memory.wf m = true) :
    Memory.wf (writeByte m a v) = true :=
  wfFrom_writeByte v h (Nat.zero_le a)

/-- Storing bytes keeps the canonical form. -/
theorem wf_memWrite (addrBits : Nat) (bytes : List Byte) :
    ∀ {m : Memory} (a : Nat), Memory.wf m = true → Memory.wf (memWrite addrBits m a bytes) = true := by
  induction bytes with
  | nil => intro m a h; exact h
  | cons v rest ih => intro m a h; exact ih _ (wf_writeByte a v h)

/-- Writing at `a` lists no cell anew but that of `a`. -/
theorem mem_writeByte {m : Memory} {a : Nat} {v : Byte} {c : Host.Cell} (h : c ∈ writeByte m a v) :
    c = (a, v) ∨ c ∈ m := by
  induction m with
  | nil =>
    by_cases hv : v = Config.unlistedByte <;> simp_all [writeByte]
  | cons d rest ih =>
    obtain ⟨b, w⟩ := d
    unfold writeByte at h
    split at h
    · split at h
      · exact .inr h
      · simpa using h
    · split at h
      · split at h
        · exact .inr (List.mem_cons_of_mem _ h)
        · rcases List.mem_cons.1 h with h | h
          · exact .inl h
          · exact .inr (List.mem_cons_of_mem _ h)
      · rcases List.mem_cons.1 h with h | h
        · exact .inr (by simp [h])
        · rcases ih h with h | h
          · exact .inl h
          · exact .inr (List.mem_cons_of_mem _ h)

/-- Storing bytes within the address space lists only addresses of it. -/
theorem memWrite_lt (addrBits : Nat) (bytes : List Byte) :
    ∀ {m : Memory} {a : Nat}, a < 2 ^ addrBits → (∀ c ∈ m, c.1 < 2 ^ addrBits) →
      ∀ c ∈ memWrite addrBits m a bytes, c.1 < 2 ^ addrBits := by
  induction bytes with
  | nil => intro m a _ hm; exact hm
  | cons v rest ih =>
    intro m a ha hm
    refine ih (Nat.mod_lt _ (Nat.two_pow_pos _)) fun c hc => ?_
    rcases mem_writeByte hc with rfl | hc
    · exact ha
    · exact hm c hc

/-- Two storages in canonical form that read alike everywhere are the same data. -/
theorem eq_of_readByte_eq_from {m : Memory} :
    ∀ {n : Memory} {lo : Nat}, Memory.wfFrom lo m = true → Memory.wfFrom lo n = true →
      (∀ a, readByte m a = readByte n a) → m = n := by
  induction m with
  | nil =>
    intro n lo _ hn h
    cases n with
    | nil => rfl
    | cons c rest =>
      obtain ⟨b, v⟩ := c
      simp only [Memory.wfFrom, Bool.and_eq_true, decide_eq_true_eq] at hn
      have := h b
      simp [readByte] at this
      exact absurd this.symm hn.1.2
  | cons c rest ih =>
    obtain ⟨b, v⟩ := c
    intro n lo hm hn h
    simp only [Memory.wfFrom, Bool.and_eq_true, decide_eq_true_eq] at hm
    cases n with
    | nil =>
      have := h b
      simp [readByte] at this
      exact absurd this hm.1.2
    | cons d rest' =>
      obtain ⟨b', v'⟩ := d
      simp only [Memory.wfFrom, Bool.and_eq_true, decide_eq_true_eq] at hn
      have hb : b = b' := by
        rcases Nat.lt_trichotomy b b' with hlt | heq | hgt
        · have := h b
          rw [readByte, if_pos rfl, readByte, if_neg (by omega),
            readByte_of_wfFrom_lt hn.2 (by omega)] at this
          exact absurd this hm.1.2
        · exact heq
        · have := h b'
          rw [readByte, if_neg (by omega), readByte_of_wfFrom_lt hm.2 (by omega), readByte,
            if_pos rfl] at this
          exact absurd this.symm hn.1.2
      subst hb
      have hv : v = v' := by
        have := h b
        simpa [readByte] using this
      subst hv
      congr 1
      refine ih hm.2 hn.2 fun a => ?_
      by_cases hab : a = b
      · subst hab
        rw [readByte_of_wfFrom_lt hm.2 (by omega), readByte_of_wfFrom_lt hn.2 (by omega)]
      · have := h a
        rwa [readByte, if_neg (fun e => hab e.symm), readByte, if_neg (fun e => hab e.symm)] at this

theorem eq_of_readByte_eq {m n : Memory} (hm : Memory.wf m = true) (hn : Memory.wf n = true)
    (h : ∀ a, readByte m a = readByte n a) : m = n :=
  eq_of_readByte_eq_from hm hn h

end Sys2Proof.Machine
end

