-- ==== Sys2Proof/Laws/PerInstr.lean ====
section
/-! SUPPORT. The family `Expansion`: an instruction's word is its BC expansion's word, and the expansion
is a BC with the same index, base and offset fields (41_extended_mnemonics.md R90). -/

namespace Sys2Proof.Laws.Expansion

/-- The expansion is a BC, has the same bytes, and expands no further. -/
def Statement (i : Instr) : Prop :=
  (∃ m x b o, expand i = .bc m x b o) ∧ encode i = encode (expand i) ∧ expand (expand i) = expand i

theorem bc (m : Mask) (x b : RegNum) (o : Offset) : Statement (.bc m x b o) := ⟨⟨_, _, _, _, rfl⟩, rfl, rfl⟩
theorem nop (x b : RegNum) (o : Offset) : Statement (.nop x b o) := ⟨⟨_, _, _, _, rfl⟩, rfl, rfl⟩
theorem bo (x b : RegNum) (o : Offset) : Statement (.bo x b o) := ⟨⟨_, _, _, _, rfl⟩, rfl, rfl⟩
theorem bh (x b : RegNum) (o : Offset) : Statement (.bh x b o) := ⟨⟨_, _, _, _, rfl⟩, rfl, rfl⟩
theorem bp (x b : RegNum) (o : Offset) : Statement (.bp x b o) := ⟨⟨_, _, _, _, rfl⟩, rfl, rfl⟩
theorem bl (x b : RegNum) (o : Offset) : Statement (.bl x b o) := ⟨⟨_, _, _, _, rfl⟩, rfl, rfl⟩
theorem bm (x b : RegNum) (o : Offset) : Statement (.bm x b o) := ⟨⟨_, _, _, _, rfl⟩, rfl, rfl⟩
theorem bne (x b : RegNum) (o : Offset) : Statement (.bne x b o) := ⟨⟨_, _, _, _, rfl⟩, rfl, rfl⟩
theorem bnz (x b : RegNum) (o : Offset) : Statement (.bnz x b o) := ⟨⟨_, _, _, _, rfl⟩, rfl, rfl⟩
theorem be (x b : RegNum) (o : Offset) : Statement (.be x b o) := ⟨⟨_, _, _, _, rfl⟩, rfl, rfl⟩
theorem bz (x b : RegNum) (o : Offset) : Statement (.bz x b o) := ⟨⟨_, _, _, _, rfl⟩, rfl, rfl⟩
theorem bnl (x b : RegNum) (o : Offset) : Statement (.bnl x b o) := ⟨⟨_, _, _, _, rfl⟩, rfl, rfl⟩
theorem bnm (x b : RegNum) (o : Offset) : Statement (.bnm x b o) := ⟨⟨_, _, _, _, rfl⟩, rfl, rfl⟩
theorem bnh (x b : RegNum) (o : Offset) : Statement (.bnh x b o) := ⟨⟨_, _, _, _, rfl⟩, rfl, rfl⟩
theorem bnp (x b : RegNum) (o : Offset) : Statement (.bnp x b o) := ⟨⟨_, _, _, _, rfl⟩, rfl, rfl⟩
theorem bno (x b : RegNum) (o : Offset) : Statement (.bno x b o) := ⟨⟨_, _, _, _, rfl⟩, rfl, rfl⟩
theorem b (x b : RegNum) (o : Offset) : Statement (.b x b o) := ⟨⟨_, _, _, _, rfl⟩, rfl, rfl⟩

end Sys2Proof.Laws.Expansion
end

