-- ==== Sys2Proof/Laws/Run.lean ====
section
/-! SUPPORT. What a run can be: where it stands while it goes on, and where a fault or a refusal ended
it. -/

namespace Sys2Proof.Machine

/-- A run at its exit address has ended there. -/
theorem runFor_of_exit {s : State} (h : exitAt s s.psw.pc = true) (n : Nat) : runFor n s = .exited s := by
  cases n <;> simp [runFor, h]

/-- A run that is not at an exit goes on by its step. -/
theorem runFor_succ_of_next {s t : State} (hx : exitAt s s.psw.pc = false) (h : step s = .next t)
    (n : Nat) : runFor (n + 1) s = runFor n t := by
  simp [runFor, hx, h]

/-- A run that has not ended stands at no exit, and goes on from where it stands. -/
theorem runFor_running {n : Nat} {s u : State} (h : runFor n s = .running u) :
    exitAt u u.psw.pc = false ∧ ∀ k, runFor (n + k) s = runFor k u := by
  induction n generalizing s with
  | zero =>
    unfold runFor at h
    split at h
    · cases h
    · rename_i hx
      cases h
      exact ⟨by simpa using hx, fun k => by rw [Nat.zero_add]⟩
  | succ n ih =>
    unfold runFor at h
    split at h
    · cases h
    · rename_i hx
      split at h
      · rename_i t ht
        refine ⟨(ih h).1, fun k => ?_⟩
        rw [Nat.add_right_comm, runFor_succ_of_next (by simpa using hx) ht, (ih h).2]
      · cases h
      · cases h

/-- A run that a fault ended stood, going on, where the faulting step was made. -/
theorem runFor_faulted {n : Nat} {s u : State} {f : Fault} (h : runFor n s = .faulted u f) :
    step u = .fault f ∧ ∃ k, runFor k s = .running u := by
  induction n generalizing s with
  | zero => unfold runFor at h; split at h <;> cases h
  | succ n ih =>
    unfold runFor at h
    split at h
    · cases h
    · rename_i hx
      split at h
      · rename_i t ht
        obtain ⟨hs, k, hk⟩ := ih h
        exact ⟨hs, k + 1, by rw [runFor_succ_of_next (by simpa using hx) ht, hk]⟩
      · rename_i hs
        cases h
        exact ⟨hs, 0, by simp [runFor, hx]⟩
      · cases h

/-- A run that a refusal ended stood, going on, where the refused step was made. -/
theorem runFor_refused {n : Nat} {s u : State} {r : Refusal} (h : runFor n s = .refused u r) :
    step u = .refused r ∧ ∃ k, runFor k s = .running u := by
  induction n generalizing s with
  | zero => unfold runFor at h; split at h <;> cases h
  | succ n ih =>
    unfold runFor at h
    split at h
    · cases h
    · rename_i hx
      split at h
      · rename_i t ht
        obtain ⟨hs, k, hk⟩ := ih h
        exact ⟨hs, k + 1, by rw [runFor_succ_of_next (by simpa using hx) ht, hk]⟩
      · cases h
      · rename_i hs
        cases h
        exact ⟨hs, 0, by simp [runFor, hx]⟩

end Sys2Proof.Machine
end

