-- ==== Sys2Proof/Laws/SourceText.lean ====
section
/-! SUPPORT. Reading back what was written: numbers, words and blanks. -/

namespace Sys2Proof.Machine

theorem digitOf_digitChar : ∀ d < 10, digitOf (Nat.digitChar d) = some d := by decide

/-- Reading on past a digit. -/
theorem readDigits_digit (acc : Nat) {d : Nat} (h : d < 10) (cs : List Char) :
    readDigits acc (Nat.digitChar d :: cs) = readDigits (acc * 10 + d) cs := by
  rw [readDigits, digitOf_digitChar d h]

/-- Reading a written number goes on from its value. -/
theorem readDigits_writeNat (n : Nat) :
    ∀ rest, readDigits 0 (writeNat n ++ rest) = readDigits n rest := by
  induction n using Nat.strongRecOn with
  | _ n ih =>
    intro rest
    by_cases hn : n < 10
    · rw [writeNat, Nat.toDigits_of_lt_base hn]
      simpa using readDigits_digit 0 hn rest
    · rw [writeNat, Nat.toDigits_of_base_le (by omega) (by omega), List.append_assoc]
      have := ih (n / 10) (by omega) ([Nat.digitChar (n % 10)] ++ rest)
      rw [writeNat] at this
      rw [this, List.singleton_append, readDigits_digit _ (by omega)]
      congr 1
      omega

/-- A number read up to a character that is no digit. -/
theorem readDigits_stop (acc : Nat) {c : Char} (h : digitOf c = none) (cs : List Char) :
    readDigits acc (c :: cs) = (acc, c :: cs) := by
  rw [readDigits, h]

/-- A written number begins with a digit. -/
theorem writeNat_head (n : Nat) : ∃ d < 10, ∃ cs, writeNat n = Nat.digitChar d :: cs := by
  induction n using Nat.strongRecOn with
  | _ n ih =>
    by_cases hn : n < 10
    · exact ⟨n, hn, [], Nat.toDigits_of_lt_base hn⟩
    · obtain ⟨d, hd, cs, h⟩ := ih (n / 10) (by omega)
      refine ⟨d, hd, cs ++ [Nat.digitChar (n % 10)], ?_⟩
      rw [writeNat] at h ⊢
      rw [Nat.toDigits_of_base_le (by omega) (by omega), h, List.cons_append]

/-- A written number before a character that is no digit reads back. -/
theorem readNat_writeNat (n : Nat) {c : Char} (h : digitOf c = none) (cs : List Char) :
    readNat (writeNat n ++ c :: cs) = some (n, c :: cs) := by
  obtain ⟨d, hd, ds, hw⟩ := writeNat_head n
  have := readDigits_writeNat n (c :: cs)
  rw [readDigits_stop n h, hw, List.cons_append, readDigits_digit 0 hd] at this
  rw [hw, List.cons_append, readNat, digitOf_digitChar d hd]
  simpa using this

/-- Every character of a written number is a digit. -/
theorem mem_writeNat (n : Nat) : ∀ c ∈ writeNat n, ∃ d < 10, c = Nat.digitChar d := by
  induction n using Nat.strongRecOn with
  | _ n ih =>
    intro c hc
    by_cases hn : n < 10
    · rw [writeNat, Nat.toDigits_of_lt_base hn] at hc
      exact ⟨n, hn, by simpa using hc⟩
    · rw [writeNat, Nat.toDigits_of_base_le (by omega) (by omega)] at hc
      rcases List.mem_append.1 hc with h | h
      · exact ih (n / 10) (by omega) c h
      · exact ⟨n % 10, by omega, by simpa using h⟩

/-- A word without blanks, up to a blank. -/
theorem readWord_append {w : List Char} (h : ' ' ∉ w) (rest : List Char) :
    readWord (w ++ ' ' :: rest) = (w, ' ' :: rest) := by
  induction w with
  | nil => simp [readWord]
  | cons c cs ih =>
    have hc : c ≠ ' ' := fun e => h (by simp [e])
    rw [List.cons_append, readWord, if_neg hc, ih (fun m => h (by simp [m]))]

/-- A word without blanks, up to the end. -/
theorem readWord_all {w : List Char} (h : ' ' ∉ w) : readWord w = (w, []) := by
  induction w with
  | nil => rfl
  | cons c cs ih =>
    have hc : c ≠ ' ' := fun e => h (by simp [e])
    rw [readWord, if_neg hc, ih (fun m => h (by simp [m]))]

/-- Skipping blanks stops at a character that is none. -/
theorem skipBlanks_cons {c : Char} (h : c ≠ ' ') (cs : List Char) : skipBlanks (c :: cs) = c :: cs := by
  rw [skipBlanks, if_neg h]

/-- A text is marked as a comment by its first character alone. -/
@[simp] theorem isCommentMark_cons (c : Char) (cs : List Char) : isCommentMark (c :: cs) = (c == '*') := rfl

@[simp] theorem isCommentMark_nil : isCommentMark [] = false := rfl

end Sys2Proof.Machine
end

