-- ==== Sys2Proof/Tests/Slice0.lean ====
section
/-! SUPPORT. Tests whose expected results are the spec's own vectors (95_test_vectors.md), and for each
statement with hypotheses a witness that something meets them. -/

namespace Sys2Proof.Machine.Tests

/-! ### The setting of 95_test_vectors.md B.0 -/

/-- The registers of B.0; `x[2]` has no launch value. -/
def vectorState : State where
  regs := #v[0xDEADBEEF, 0x00008000, 0, 0x00000000, 0x00000002, 0x00FFF000, 0x00002000, 0x00000300,
    0x00020000, 0x00001001, 0x00001000, 0x0000F000, 0x00003000, 0xFF004000, 0x00001800, 0x00000FFE]
  noValue := [2]
  psw := ⟨0x001000, 0, 1⟩
  mem := []
  storageKeys := ⟨1, [(0x008000, 2)]⟩
  cfg := { Config.system360 with valid := ⟨true, [(0x010000, false)]⟩ }

/-- B.0 with another `cc` and `key`. -/
def vector (cc : CondCode) (key : Nat) : State := { vectorState with psw := ⟨0x001000, cc, key⟩ }

/-- A state with `BASE0_MODE = zero_base`. -/
def zeroBased (s : State) : State := { s with cfg := { s.cfg with base0Mode := .zeroBase } }

/-- A state with `PROTECT_FETCH = false`. -/
def unprotected (s : State) : State := { s with cfg := { s.cfg with protectFetch := false } }

/-- A step with the word placed at `pc`. -/
def stepOn (s : State) (word : Nat) : Outcome := step (s.withFetchWord 32 word)

/-- The `pc` of a next state. -/
def pcAfter : Outcome → Option Nat
  | .next s => some s.psw.pc
  | _ => none

/-- The fault of an outcome. -/
def faultOf : Outcome → Option Fault
  | .fault f => some f
  | _ => none

/-- The refusal of an outcome. -/
def refusalOf : Outcome → Option Refusal
  | .refused r => some r
  | _ => none

/-! ### Encodings, each word written out from 95_test_vectors.md A.2, B.1, B.7 -/

theorem test_decode_bc : decodeWord 0x47376100 = .instr (.bc 3 7 6 0x100) ∧
    encode (.bc 3 7 6 0x100) = 0x47376100 := by decide
theorem test_decode_bc_fields : decodeWord 0x47A5C123 = .instr (.bc 10 5 12 0x123) ∧
    decodeWord 0x4781F002 = .instr (.bc 8 1 15 0x002) ∧
    decodeWord 0x47FFFFFF = .instr (.bc 15 15 15 0xFFF) := by decide
theorem test_decode_nop : encode (.nop 7 6 0x100) = 0x47076100 ∧
    decodeWord 0x47076100 = .instr (expand (.nop 7 6 0x100)) := by decide
theorem test_decode_bo : encode (.bo 7 6 0x100) = 0x47176100 ∧
    decodeWord 0x47176100 = .instr (expand (.bo 7 6 0x100)) := by decide
theorem test_decode_bh : encode (.bh 0 10 0x06A) = 0x4720A06A ∧
    decodeWord 0x4720A06A = .instr (expand (.bh 0 10 0x06A)) := by decide
theorem test_decode_bp : encode (.bp 7 6 0x100) = 0x47276100 ∧
    decodeWord 0x47276100 = .instr (expand (.bp 7 6 0x100)) := by decide
theorem test_decode_bl : encode (.bl 0 10 0x06A) = 0x4740A06A ∧
    decodeWord 0x4740A06A = .instr (expand (.bl 0 10 0x06A)) := by decide
theorem test_decode_bm : encode (.bm 0 10 0x06A) = 0x4740A06A ∧
    decodeWord 0x4740A06A = .instr (expand (.bm 0 10 0x06A)) := by decide
theorem test_decode_bne : encode (.bne 7 6 0x100) = 0x47776100 ∧
    decodeWord 0x47776100 = .instr (expand (.bne 7 6 0x100)) := by decide
theorem test_decode_bnz : encode (.bnz 0 10 0x06A) = 0x4770A06A ∧
    decodeWord 0x4770A06A = .instr (expand (.bnz 0 10 0x06A)) := by decide
theorem test_decode_be : encode (.be 0 10 0x06A) = 0x4780A06A ∧
    decodeWord 0x4780A06A = .instr (expand (.be 0 10 0x06A)) := by decide
theorem test_decode_bz : encode (.bz 0 10 0x06A) = 0x4780A06A ∧
    decodeWord 0x4780A06A = .instr (expand (.bz 0 10 0x06A)) := by decide
theorem test_decode_bnl : encode (.bnl 0 10 0x06A) = 0x47B0A06A ∧
    decodeWord 0x47B0A06A = .instr (expand (.bnl 0 10 0x06A)) := by decide
theorem test_decode_bnm : encode (.bnm 0 10 0x06A) = 0x47B0A06A ∧
    decodeWord 0x47B0A06A = .instr (expand (.bnm 0 10 0x06A)) := by decide
theorem test_decode_bnh : encode (.bnh 0 10 0x06A) = 0x47D0A06A ∧
    decodeWord 0x47D0A06A = .instr (expand (.bnh 0 10 0x06A)) := by decide
theorem test_decode_bnp : encode (.bnp 0 10 0x06A) = 0x47D0A06A ∧
    decodeWord 0x47D0A06A = .instr (expand (.bnp 0 10 0x06A)) := by decide
theorem test_decode_bno : encode (.bno 0 10 0x06A) = 0x47E0A06A ∧
    decodeWord 0x47E0A06A = .instr (expand (.bno 0 10 0x06A)) := by decide
theorem test_decode_b : encode (.b 0 10 0x06A) = 0x47F0A06A ∧
    decodeWord 0x47F0A06A = .instr (expand (.b 0 10 0x06A)) := by decide

/-- B.1: the first bytes 0x46, 0x48 and 0x07 are not BC. -/
theorem test_decode_other_opcodes : decodeWord 0x46F0A06A = .opcodeOutOfScope 0x46 ∧
    decodeWord 0x48F0A06A = .opcodeOutOfScope 0x48 ∧ decodeWord 0x07F0A06A = .opcodeOutOfScope 0x07 := by
  decide

/-- 30_encoding.md R63: fewer than four bytes are no instruction; the fifth byte is left over. -/
theorem test_decode_bytes : decode [0x47, 0xF0, 0xA0] = .truncated 3 ∧
    decode [0x47, 0xF0, 0xA0, 0x6A, 0x47] = .done (.instr (.bc 15 0 10 0x06A)) [0x47] ∧
    decode [0x6A, 0xA0, 0xF0, 0x47] = .done (.opcodeOutOfScope 0x6A) [] := by decide

/-- The opcode table's numbering: bit 31 is the most significant bit of the first byte. -/
theorem test_tableWord : decodeTableWord 32 0x47F0A06A = some (.bc 15 0 10 0x06A) ∧
    decodeTableWord 32 0x46F0A06A = none := by decide

/-! ### Well-formedness: an ill-formed term for each check (30_encoding.md R62, R76) -/

theorem test_wf_accepts_the_bounds : (Statement.bc 15 (.explicit ⟨4095, 15, 15⟩)).wellFormed = true := by decide
theorem test_wf_refuses_mask : (Statement.bc 16 (.explicit ⟨0, 0, 0⟩)).wellFormed = false := by decide
theorem test_wf_refuses_offset : (Statement.ext .bh (.explicit ⟨4096, 0, 0⟩)).wellFormed = false := by decide
theorem test_wf_refuses_index : (Statement.ext .bh (.explicit ⟨0, 16, 0⟩)).wellFormed = false := by decide
theorem test_wf_refuses_base : (Statement.ext .bh (.explicit ⟨0, 0, 16⟩)).wellFormed = false := by decide
theorem test_wf_refuses_single_offset : (Statement.ext .nop (.single 4096 0)).wellFormed = false := by decide
theorem test_wf_refuses_single_value : (Statement.ext .nop (.single 0 1)).wellFormed = false := by decide

/-! ### The condition code (40_branch_on_condition.md R81, the table of all sixteen masks) -/

theorem test_ccBit_table :
    ((List.range 16).map fun m => (List.finRange 4).map fun c => (ccBit (.ofNat 4 m) c).toNat) =
      [[0, 0, 0, 0], [0, 0, 0, 1], [0, 0, 1, 0], [0, 0, 1, 1], [0, 1, 0, 0], [0, 1, 0, 1], [0, 1, 1, 0],
        [0, 1, 1, 1], [1, 0, 0, 0], [1, 0, 0, 1], [1, 0, 1, 0], [1, 0, 1, 1], [1, 1, 0, 0], [1, 1, 0, 1],
        [1, 1, 1, 0], [1, 1, 1, 1]] := by decide

/-! ### One step of each instruction -/

/-- B.3 rows 5, 6, 9, 12, 13, 14, 15: the forms of the sum. -/
theorem test_bc_sums : pcAfter (stepOn vectorState 0x47F76100) = some 0x002400 ∧
    pcAfter (stepOn vectorState 0x47F67100) = some 0x002400 ∧
    pcAfter (stepOn vectorState 0x47FAA000) = some 0x002000 ∧
    pcAfter (stepOn vectorState 0x47F03000) = some 0x000000 ∧
    pcAfter (stepOn vectorState 0x47F43000) = some 0x000002 ∧
    pcAfter (stepOn vectorState 0x47F0D000) = some 0x004000 ∧
    pcAfter (stepOn vectorState 0x47F09001) = some 0x001002 := by decide
/-- B.3 rows 7, 8: mask 3 on each condition code. -/
theorem test_bc_mask_three : pcAfter (stepOn (vector 0 1) 0x47376100) = some 0x001004 ∧
    pcAfter (stepOn (vector 1 1) 0x47376100) = some 0x001004 ∧
    pcAfter (stepOn (vector 2 1) 0x47376100) = some 0x002400 ∧
    pcAfter (stepOn (vector 3 1) 0x47376100) = some 0x002400 := by decide
/-- B.3 row 4, B.5 rows 4, 16: no address formed, no register read. -/
theorem test_nop : pcAfter (exec (.nop 7 6 0x100) vectorState) = some 0x001004 ∧
    pcAfter (exec (.nop 0 10 0x001) vectorState) = some 0x001004 ∧
    pcAfter (exec (.nop 0 2 0x000) vectorState) = some 0x001004 := by decide
/-- B.6 row 4: the successor wraps at the top of storage. -/
theorem test_nop_wraps :
    pcAfter (exec (.nop 0 0 0) { vectorState with psw := ⟨0xFFFFFC, 0, 1⟩ }) = some 0x000000 := by decide
theorem test_bo : pcAfter (exec (.bo 0 10 0x06A) (vector 3 1)) = some 0x00106A ∧
    pcAfter (exec (.bo 0 10 0x06A) (vector 2 1)) = some 0x001004 := by decide
theorem test_bh : pcAfter (exec (.bh 0 10 0x06A) (vector 2 1)) = some 0x00106A ∧
    pcAfter (exec (.bh 0 10 0x06A) (vector 1 1)) = some 0x001004 := by decide
theorem test_bp : pcAfter (exec (.bp 0 10 0x06A) (vector 2 1)) = some 0x00106A ∧
    pcAfter (exec (.bp 0 10 0x06A) (vector 3 1)) = some 0x001004 := by decide
theorem test_bl : pcAfter (exec (.bl 0 10 0x06A) (vector 1 1)) = some 0x00106A ∧
    pcAfter (exec (.bl 0 10 0x06A) (vector 2 1)) = some 0x001004 := by decide
/-- B.5 rows 17, 18: a register without a value matters only when the branch is taken. -/
theorem test_bl_unwritten : pcAfter (exec (.bl 0 2 0x01F) (vector 0 1)) = some 0x001004 ∧
    faultOf (exec (.bl 0 2 0x01F) (vector 1 1)) = some (.unwrittenRegister 2) := by decide
theorem test_bm : pcAfter (exec (.bm 0 10 0x06A) (vector 1 1)) = some 0x00106A ∧
    pcAfter (exec (.bm 0 10 0x06A) (vector 0 1)) = some 0x001004 := by decide
theorem test_bne : pcAfter (exec (.bne 0 10 0x06A) (vector 3 1)) = some 0x00106A ∧
    pcAfter (exec (.bne 0 10 0x06A) (vector 0 1)) = some 0x001004 := by decide
theorem test_bnz : pcAfter (exec (.bnz 0 10 0x06A) (vector 1 1)) = some 0x00106A ∧
    pcAfter (exec (.bnz 0 10 0x06A) (vector 0 1)) = some 0x001004 := by decide
theorem test_be : pcAfter (exec (.be 0 10 0x06A) (vector 0 1)) = some 0x00106A ∧
    pcAfter (exec (.be 0 10 0x06A) (vector 3 1)) = some 0x001004 := by decide
/-- B.5 rows 5, 6: an odd target faults only when the branch is taken. -/
theorem test_be_odd : pcAfter (exec (.be 0 10 0x001) (vector 1 1)) = some 0x001004 ∧
    faultOf (exec (.be 0 10 0x001) (vector 0 1)) =
      some (.operationException .oddTarget .branch 0x001000 0x001001) := by decide
theorem test_bz : pcAfter (exec (.bz 0 10 0x06A) (vector 0 1)) = some 0x00106A ∧
    pcAfter (exec (.bz 0 10 0x06A) (vector 1 1)) = some 0x001004 := by decide
theorem test_bnl : pcAfter (exec (.bnl 0 10 0x06A) (vector 0 1)) = some 0x00106A ∧
    pcAfter (exec (.bnl 0 10 0x06A) (vector 1 1)) = some 0x001004 := by decide
theorem test_bnm : pcAfter (exec (.bnm 0 10 0x06A) (vector 3 1)) = some 0x00106A ∧
    pcAfter (exec (.bnm 0 10 0x06A) (vector 1 1)) = some 0x001004 := by decide
theorem test_bnh : pcAfter (exec (.bnh 0 10 0x06A) (vector 1 1)) = some 0x00106A ∧
    pcAfter (exec (.bnh 0 10 0x06A) (vector 2 1)) = some 0x001004 := by decide
theorem test_bnp : pcAfter (exec (.bnp 0 10 0x06A) (vector 0 1)) = some 0x00106A ∧
    pcAfter (exec (.bnp 0 10 0x06A) (vector 2 1)) = some 0x001004 := by decide
theorem test_bno : pcAfter (exec (.bno 0 10 0x06A) (vector 2 1)) = some 0x00106A ∧
    pcAfter (exec (.bno 0 10 0x06A) (vector 3 1)) = some 0x001004 := by decide
/-- B.3 rows 1, 10, 11. -/
theorem test_b : pcAfter (exec (.b 0 10 0x06A) (vector 3 1)) = some 0x00106A ∧
    pcAfter (exec (.b 0 10 0x000) vectorState) = some 0x001000 ∧
    pcAfter (exec (.b 0 10 0xFFE) vectorState) = some 0x001FFE := by decide
/-- B.5 rows 1, 3, 7, 8, 9, 12, 14, 15: each exception, and which comes first. -/
theorem test_b_exceptions :
    faultOf (exec (.b 0 10 0x001) vectorState) = some (.operationException .oddTarget .branch 0x1000 0x1001) ∧
    faultOf (exec (.b 0 10 0xFFF) vectorState) = some (.operationException .oddTarget .branch 0x1000 0x1FFF) ∧
    faultOf (exec (.b 0 8 0x000) vectorState) = some (.operationException .invalidTarget .branch 0x1000 0x20000) ∧
    faultOf (exec (.b 0 8 0x001) vectorState) = some (.operationException .oddTarget .branch 0x1000 0x20001) ∧
    faultOf (exec (.b 0 1 0x000) vectorState) = some (.memoryProtectException .branch 0x1000 0x8000 2 1) ∧
    faultOf (exec (.b 5 11 0x010) vectorState) = some (.memoryProtectException .branch 0x1000 0xE010 2 1) ∧
    faultOf (exec (.b 0 2 0x000) vectorState) = some (.unwrittenRegister 2) ∧
    faultOf (exec (.b 2 10 0x000) vectorState) = some (.unwrittenRegister 2) := by decide

/-! ### The settings, the fetch, the run -/

/-- B.4: base register field 0 under both settings; x[0] is never read. -/
theorem test_base_zero : pcAfter (stepOn vectorState 0x47FC0006) = some 0x001004 ∧
    pcAfter (stepOn (zeroBased vectorState) 0x47FC0006) = some 0x003006 ∧
    pcAfter (stepOn vectorState 0x47FC0007) = some 0x001004 ∧
    faultOf (stepOn (zeroBased vectorState) 0x47FC0007) =
      some (.operationException .oddTarget .branch 0x1000 0x3007) ∧
    pcAfter (stepOn (zeroBased vectorState) 0x47F00006) = some 0x000006 ∧
    pcAfter (stepOn (zeroBased vectorState) 0x47000000) = some 0x001004 := by decide

/-- B.5 rows 10, 11, 13: a process with key 0, and the check switched off. -/
theorem test_keys : pcAfter (stepOn (vector 0 0) 0x47F01000) = some 0x008000 ∧
    pcAfter (stepOn (unprotected vectorState) 0x47F01000) = some 0x008000 ∧
    pcAfter (stepOn (vector 0 0) 0x47F5B010) = some 0x00E010 := by decide

/-- B.2: a refused first byte, and the three faults recorded against the fetch. -/
theorem test_fetch_stops : refusalOf (stepOn vectorState 0x6AA0F047) = some (.opcodeOutOfScope 0x6A) ∧
    faultOf (stepOn { vectorState with psw := ⟨0x001001, 0, 1⟩ } 0x47000000) =
      some (.operationException .oddTarget .fetch 0x1001 0x1001) ∧
    faultOf (stepOn { vectorState with psw := ⟨0x00FFFE, 0, 0⟩ } 0x47000000) =
      some (.operationException .invalidTarget .fetch 0xFFFE 0x10000) ∧
    faultOf (stepOn (vector 0 2) 0x47000000) = some (.memoryProtectException .fetch 0x1000 0x1000 1 2) := by
  decide

/-- B.2, B.6: fetches that pass, with the check off, with key 0, and to the last valid address. -/
theorem test_fetch_passes : pcAfter (stepOn (unprotected (vector 0 2)) 0x47000000) = some 0x001004 ∧
    pcAfter (stepOn (vector 0 0) 0x47000000) = some 0x001004 ∧
    pcAfter (stepOn { vectorState with psw := ⟨0x00FFFC, 0, 0⟩ } 0x47000000) = some 0x010000 := by decide

/-- 00_scope.md R13: storage written and read, wrapping at the top, the canonical form kept. -/
theorem test_storage : memRead 24 (memWrite 24 [] 0xFFFFFE [0x47, 0xF0, 0x00, 0x6A]) 0xFFFFFE 4 =
      [0x47, 0xF0, 0x00, 0x6A] ∧
    memWrite 24 [] 0xFFFFFE [0x47, 0xF0, 0x00, 0x6A] = [(1, 0x6A), (0xFFFFFE, 0x47), (0xFFFFFF, 0xF0)] := by
  decide

/-- Program P1's first branch (95_test_vectors.md C) with its exit address, one step: the run ends there. -/
def exitState : State :=
  { vectorState with cfg := { vectorState.cfg with isExit := ⟨false, [(0x001020, true), (0x001021, false)]⟩ } }

theorem test_run_exits : runFor 5 { exitState with psw := ⟨0x001020, 0, 1⟩ } =
    .exited { exitState with psw := ⟨0x001020, 0, 1⟩ } := by decide

/-! ### The assembler (30_encoding.md R72, R73, R76; 95_test_vectors.md A.1, B.7) -/

/-- The labels of the source's examples. -/
def symbols : Symbols := [(['L', 'A', 'B', 'E', 'L'], ⟨106, 0, 10⟩), (['X', '1'], ⟨256, 7, 6⟩)]

theorem test_assemble_labels :
    (assemble symbols (.ext .bnl (.label ['L', 'A', 'B', 'E', 'L']))).map encode = some 0x47B0A06A ∧
    (assemble symbols (.ext .b (.label ['X', '1']))).map encode = some 0x47F76100 ∧
    (assemble symbols (.ext .nop (.single 0 0))).map encode = some 0x47000000 ∧
    assemble symbols (.ext .b (.label ['Y'])) = none := by decide

theorem test_using : usingOperand [(0, 0x1000), (12, 0x1000)] 0x1FFF = some ⟨4095, 0, 12⟩ ∧
    usingOperand [(12, 0x1000)] 0x2000 = none ∧ usingOperand [(12, 0x1000)] 0xFFF = none ∧
    symbolsUsing [(10, 0x1000)] [(['L'], 0x106A), (['M'], 0x0)] = [(['L'], ⟨106, 0, 10⟩)] := by decide

/-- `BC 15,106(0,10)`. -/
theorem test_read_bc : readLine [' ', 'B', 'C', ' ', '1', '5', ',', '1', '0', '6', '(', '0', ',', '1', '0', ')'] =
    some (.statement [] (.bc 15 (.explicit ⟨106, 0, 10⟩))) := by decide

/-- `L NOP 0(0) x`: label, mnemonic, the one-value operand, a comment. -/
theorem test_read_nop : readLine ['L', ' ', 'N', 'O', 'P', ' ', ' ', '0', '(', '0', ')', ' ', 'x'] =
    some (.statement ['L'] (.ext .nop (.single 0 0))) := by decide

/-- A comment line, and a mnemonic outside the spec. -/
theorem test_read_others : readLine [' ', '*', 'x'] = some .comment ∧
    readLine [' ', 'C', 'L', 'C', ' ', 'A'] = none := by decide

/-- R76: `*` after a label begins a comment, whatever follows. A label that starts with a digit is none
(log entry 8), and `*` in the operand's comment is not one. -/
theorem test_read_after_label : readLine ['L', ' ', '*', ' ', 'B', ' ', 'X'] = some .comment ∧
    readLine ['*', ' ', 'B', ' ', 'X'] = some .comment ∧
    readLine ['1', 'L', ' ', 'B', ' ', 'X'] = none ∧
    readLine ['L', ' ', 'B', ' ', 'X', ' ', '*'] = some (.statement ['L'] (.ext .b (.label ['X']))) := by decide

theorem test_write_bh : writeStatement (.ext .bh (.explicit ⟨106, 0, 10⟩)) =
    ['B', 'H', ' ', '1', '0', '6', '(', '0', ',', '1', '0', ')'] := by decide

/-! ### Witnesses: for each statement with hypotheses, a state and operands that meet them -/

/-- LABEL, `106(0,10)`, may be branched to from B.0. -/
theorem ready_label (cc : CondCode) : BranchReady (vector cc 1) 0 10 0x06A 0x00106A :=
  ⟨.inl (by decide), rfl, by decide, rfl, fun _ => rfl⟩

/-- X1, `256(7,6)`, two non-zero registers. -/
theorem ready_x1 : BranchReady vectorState 7 6 0x100 0x002400 :=
  ⟨by decide, rfl, by decide, by decide, by decide⟩

/-- The same register as base and index. -/
theorem ready_double : BranchReady vectorState 10 10 0 0x002000 :=
  ⟨by decide, rfl, by decide, by decide, by decide⟩

/-- Base field 0 under `zero_base`, with and without an index. -/
theorem ready_zero_base : BranchReady (zeroBased vectorState) 12 0 6 0x003006 ∧
    BranchReady (zeroBased vectorState) 0 0 6 0x000006 :=
  ⟨⟨.inr rfl, rfl, by decide, by decide, by decide⟩, ⟨.inr rfl, rfl, by decide, by decide, by decide⟩⟩

/-- B.0 meets the invariant, with the first and the last fetchable address of its valid range. -/
theorem vector_inv : State.Inv vectorState :=
  ⟨by decide, by decide, by decide, by decide, by decide, by decide, by decide, by decide, by decide⟩

theorem witness_EveryFieldValueIsABc : 15 ≤ 15 ∧ 15 ≤ 15 ∧ 15 ≤ 15 ∧ 4095 ≤ 4095 := by decide

theorem witness_DecodeAndEncodeAreInverseOnBc :
    0x47FFFFFF#32 &&& 0xFF000000#32 = 0x47000000#32 ∧ 0x46FFFFFF#32 &&& 0xFF000000#32 ≠ 0x47000000#32 := by
  decide

theorem witness_StepRunsTheDecodedInstruction : ∃ s i, EvenPc s ∧ FetchablePc s ∧
    decode (memRead s.cfg.addrBits s.mem s.psw.pc 4) = .done (.instr i) [] :=
  ⟨vectorState.withFetchWord 32 0x47F0A06A, .bc 15 0 10 0x06A, by decide, by decide, by decide⟩

theorem witness_EveryOtherOpcodeIsRefused : EvenPc exitState ∧ FetchablePc exitState ∧
    readByte exitState.mem exitState.psw.pc ≠ 0x47#8 ∧ exitAt exitState exitState.psw.pc = false := by decide

theorem witness_FetchReadsTheFourBytesAtPc : ∃ s, EvenPc s ∧ FetchablePc s ∧ s.psw.pc = 0xFFFFFC :=
  ⟨setPc State.reset 0xFFFFFC, by decide, by decide, rfl⟩

theorem witness_FetchFaults_odd : (setPc vectorState 0x001001).psw.pc % 2 = 1 := by decide
theorem witness_FetchFaults_invalid : ∃ s before a after, EvenPc s ∧
    fetchAddresses s = before ++ a :: after ∧ (∀ x ∈ before, validAt s x = true) ∧ validAt s a = false :=
  ⟨setPc vectorState 0x00FFFE, [0x00FFFE, 0x00FFFF], 0x010000, [0x010001], by decide, by decide, by decide, by decide⟩
theorem witness_FetchFaults_key : ∃ s before a after, EvenPc s ∧
    fetchAddresses s = before ++ a :: after ∧ (∀ x ∈ fetchAddresses s, validAt s x = true) ∧
    s.cfg.protectFetch = true ∧ (∀ x ∈ before, keyOK s x = true) ∧ s.psw.key ≠ 0 ∧ keyAt s a ≠ s.psw.key :=
  ⟨setPc vectorState 0x007FFE, [0x007FFE, 0x007FFF], 0x008000, [0x008001], by decide, by decide, by decide,
    by decide, by decide, by decide, by decide⟩

theorem witness_PlacedWordIsFetchedNext : State.Inv vectorState ∧ FetchablePc vectorState :=
  ⟨vector_inv, by decide⟩

theorem witness_BcFollowsItsPseudocode : vectorState.cfg.base0Mode = .sourceNoop := rfl
theorem witness_BcUnderZeroBaseFollowsItsPseudocode : (zeroBased vectorState).cfg.base0Mode = .zeroBase := rfl
theorem witness_SettingsAgreeOffBaseZero : vectorState.cfg.base0Mode = .sourceNoop ∧
    zeroBased vectorState = { vectorState with cfg := { vectorState.cfg with base0Mode := .zeroBase } } ∧
    ((10 : RegNum) ≠ 0 ∨ (15 : Mask) = 0) ∧ ((0 : RegNum) ≠ 0 ∨ (0 : Mask) = 0) := by decide

/-- Mask 8 on condition code 0 and mask 1 on 3 branch; mask 7 on 0 and mask 14 on 3 do not. -/
theorem witness_MaskBitSelectsItsConditionCode :
    ((vector 0 1).psw.cc = 0 ∧ (8 : Mask).toNat / 8 % 2 = 1 ∧ BranchReady (vector 0 1) 0 10 0x06A 0x00106A) ∧
    ((vector 3 1).psw.cc = 3 ∧ (1 : Mask).toNat % 2 = 1 ∧ BranchReady (vector 3 1) 0 10 0x06A 0x00106A) ∧
    ((vector 0 1).psw.cc = 0 ∧ (7 : Mask).toNat / 8 % 2 ≠ 1) ∧
    ((vector 3 1).psw.cc = 3 ∧ (14 : Mask).toNat % 2 ≠ 1) :=
  ⟨⟨rfl, rfl, ready_label 0⟩, ⟨rfl, rfl, ready_label 3⟩, by decide, by decide⟩

theorem witness_ZeroMaskOrZeroBaseIsANoOperation : expand (.nop 7 6 0x100) = .bc 0 7 6 0x100 ∧
    expand (.b 12 0 6) = .bc 15 12 0 6 ∧ vectorState.cfg.base0Mode = .sourceNoop := by decide
theorem witness_MaskFifteenIsUnconditional : BranchReady vectorState 0 10 0x06A 0x00106A ∧
    vectorState.cfg.base0Mode = .sourceNoop := ⟨ready_label 0, rfl⟩
theorem witness_TargetIsTheModularSum : BranchReady vectorState 7 6 0x100 0x002400 ∧
    BranchReady vectorState 0 10 0x06A 0x00106A ∧ BranchReady (zeroBased vectorState) 12 0 6 0x003006 ∧
    BranchReady (zeroBased vectorState) 0 0 6 0x000006 ∧ BranchReady vectorState 10 10 0 0x002000 :=
  ⟨ready_x1, ready_label 0, ready_zero_base.1, ready_zero_base.2, ready_double⟩
theorem witness_ExchangingNonZeroRegistersChangesNothing : (7 : RegNum) ≠ 0 ∧ (6 : RegNum) ≠ 0 ∧
    readReg vectorState 7 ≠ none ∧ readReg vectorState 6 ≠ none := by decide
theorem witness_ZeroBaseAndZeroIndexDiffer : vectorState.cfg.base0Mode = .sourceNoop ∧
    BranchReady vectorState 0 12 6 0x003006 :=
  ⟨rfl, ⟨by decide, rfl, by decide, by decide, by decide⟩⟩

/-- B.5 row 1, with the word placed at `pc` so that the run stands there too. -/
theorem witness_OddTargetRaisesOperationException : ∃ s,
    expand (.bc 15 0 10 1) = .bc 15 0 10 1 ∧ (15 : Mask).getLsbD (3 - s.psw.cc.val) = true ∧
    (10 : RegNum) ≠ 0 ∧ formTarget s 0 10 1 = .ok 0x001001 ∧ 0x001001 % 2 = 1 ∧
    fetch s = .ok (encode (.bc 15 0 10 1)) ∧ exitAt s s.psw.pc = false :=
  ⟨vectorState.withFetchWord 32 0x47F0A001, by decide, by decide, by decide, rfl, by decide, rfl, by decide⟩
/-- B.5 row 7. -/
theorem witness_InvalidTargetRaisesOperationException : ∃ s,
    expand (.bc 15 0 8 0) = .bc 15 0 8 0 ∧ (15 : Mask).getLsbD (3 - s.psw.cc.val) = true ∧
    (8 : RegNum) ≠ 0 ∧ formTarget s 0 8 0 = .ok 0x020000 ∧ validAt s 0x020000 = false ∧
    fetch s = .ok (encode (.bc 15 0 8 0)) ∧ exitAt s s.psw.pc = false :=
  ⟨vectorState.withFetchWord 32 0x47F08000, by decide, by decide, by decide, rfl, by decide, rfl, by decide⟩
/-- B.5 row 9; 0x008000 is the first address with the other key. -/
theorem witness_KeyMismatchRaisesMemoryProtectException : ∃ s,
    expand (.bc 15 0 1 0) = .bc 15 0 1 0 ∧ (15 : Mask).getLsbD (3 - s.psw.cc.val) = true ∧
    (1 : RegNum) ≠ 0 ∧ formTarget s 0 1 0 = .ok 0x008000 ∧ validAt s 0x008000 = true ∧
    s.cfg.protectFetch = true ∧ s.psw.key ≠ 0 ∧ keyAt s 0x008000 ≠ s.psw.key ∧
    fetch s = .ok (encode (.bc 15 0 1 0)) ∧ exitAt s s.psw.pc = false :=
  ⟨vectorState.withFetchWord 32 0x47F01000, by decide, by decide, by decide, rfl, by decide, by decide, by decide,
    by decide, rfl, by decide⟩
theorem witness_KeyCheckPassesOnZeroOrEqualKey : formTarget (vector 0 1) 0 10 0x06A = .ok 0x00106A ∧
    validAt (vector 0 1) 0x00106A = true ∧ (vector 0 1).cfg.protectFetch = true ∧
    keyAt (vector 0 1) 0x00106A = (vector 0 1).psw.key ∧ (vector 0 0).psw.key = 0 :=
  ⟨rfl, by decide, by decide, by decide, by decide⟩
theorem witness_NoProtectExceptionWhenOffOrKeyZero : (unprotected vectorState).cfg.protectFetch = false ∧
    (vector 0 0).psw.key = 0 := by decide
theorem witness_UnwrittenRegisterFaultsOnlyWhenBranching : expand (.b 0 2 0) = .bc 15 0 2 0 ∧
    expand (.b 2 10 0) = .bc 15 2 10 0 ∧ (15 : Mask).getLsbD (3 - vectorState.psw.cc.val) = true ∧
    (2 : RegNum) ∈ vectorState.noValue ∧ (10 : RegNum) ∉ vectorState.noValue ∧
    expand (.bl 0 2 0x01F) = .bc 4 0 2 0x01F ∧ (4 : Mask).getLsbD (3 - vectorState.psw.cc.val) = false := by decide
theorem witness_ValuedRegistersNeverFault : AllRegsValued State.reset ∧
    pcAfter (stepOn State.reset 0x47F01000) = some 0 := by decide

/-- Program P1's launch (95_test_vectors.md C) with cc 3: only `x[12]` has a value. -/
def p1Launch : State where
  regs := #v[0, 0, 0, 0, 0, 0, 0, 0, 0, 0, 0, 0, 0x00001000, 0, 0, 0]
  noValue := [0, 1, 2, 3, 4, 5, 6, 7, 8, 9, 10, 11, 13, 14, 15]
  psw := ⟨0x001000, 3, 1⟩
  mem := memWrite 24 [] 0x001000
    [0x47, 0x80, 0xC0, 0x20, 0x47, 0x40, 0xC0, 0x30, 0x47, 0x20, 0xC0, 0x40, 0x47, 0xF0, 0xC0, 0x50]
  storageKeys := ⟨1, []⟩
  cfg := { Config.system360 with isExit := ⟨false, [(0x001050, true), (0x001051, false)]⟩ }

/-- A branch whose base register is `x[12]` and whose index field is 0 reads only `x[12]`. -/
theorem p1_reads {u : State} {r : RegNum} {m : Mask} {o : Offset} {w : InstrWord}
    (hf : fetch u = .ok w) (hd : decodeWord w = .instr (.bc m 0 12 o)) (h : ReadByNextBranch u r) : r = 12 := by
  obtain ⟨w', m', x, b, o', hf', hd', _, h0, hr⟩ := h
  rw [hf] at hf'
  cases hf'
  rw [hd] at hd'
  cases hd'
  exact hr.resolve_right h0

/-- P1 reads only `x[12]` in its four steps, so its launch meets the premise although fifteen registers
have no value. -/
theorem witness_RegsForBranchesIsNoRegisterFault : RegsForBranches p1Launch ∧ ¬ AllRegsValued p1Launch ∧
    exitAt p1Launch p1Launch.psw.pc = false ∧ step p1Launch = .next (setPc p1Launch 0x001004) := by
  refine ⟨fun n u r hrun hread => ?_, by decide, by decide, rfl⟩
  have key : ∀ pc m o w, fetch (setPc p1Launch pc) = .ok w → decodeWord w = .instr (.bc m 0 12 o) →
      u = setPc p1Launch pc → readReg u r ≠ none := by
    rintro pc m o w hf hd rfl
    rw [p1_reads hf hd hread, show readReg (setPc p1Launch pc) 12 = some 0x1000 from rfl]
    simp
  match n with
  | 0 => exact key 0x001000 8 0x020 0x4780C020 (by decide) (by decide) (RunResult.running.inj hrun).symm
  | 1 => exact key 0x001004 4 0x030 0x4740C030 (by decide) (by decide) (RunResult.running.inj hrun).symm
  | 2 => exact key 0x001008 2 0x040 0x4720C040 (by decide) (by decide) (RunResult.running.inj hrun).symm
  | 3 => exact key 0x00100C 15 0x050 0x47F0C050 (by decide) (by decide) (RunResult.running.inj hrun).symm
  | k + 4 =>
    have h4 : runFor (k + 4) p1Launch = .exited (setPc p1Launch 0x001050) := by
      rw [runFor_succ_of_next (t := setPc p1Launch 0x001004) (by decide) rfl,
        runFor_succ_of_next (t := setPc p1Launch 0x001008) (by decide) rfl,
        runFor_succ_of_next (t := setPc p1Launch 0x00100C) (by decide) rfl,
        runFor_succ_of_next (t := setPc p1Launch 0x001050) (by decide) rfl]
      exact runFor_of_exit (by decide) k
    rw [h4] at hrun
    cases hrun
theorem witness_ExtendedMnemonicAssemblesToItsBc : vectorState.cfg.base0Mode = .sourceNoop := rfl

/-- Every condition code, with a target ready: both clauses of each `BranchesExactlyOn`. -/
theorem witness_BranchesExactlyOn (cc : CondCode) : (vector cc 1).psw.cc = cc ∧
    BranchReady (vector cc 1) 0 10 0x06A 0x00106A := ⟨rfl, ready_label cc⟩
theorem witness_arithmetic (o : ArithmeticOutcome) : (vector (ccAfterArithmetic o) 1).psw.cc = ccAfterArithmetic o ∧
    BranchReady (vector (ccAfterArithmetic o) 1) 0 10 0x06A 0x00106A := ⟨rfl, ready_label _⟩
theorem witness_comparison (a b : Int) :
    (vector (ccAfterComparison (compareOutcome a b)) 1).psw.cc = ccAfterComparison (compareOutcome a b) ∧
    BranchReady (vector (ccAfterComparison (compareOutcome a b)) 1) 0 10 0x06A 0x00106A := ⟨rfl, ready_label _⟩
theorem witness_testUnderMask (o : TestOutcome) :
    (vector (ccAfterTestUnderMask o) 1).psw.cc = ccAfterTestUnderMask o ∧
    BranchReady (vector (ccAfterTestUnderMask o) 1) 0 10 0x06A 0x00106A := ⟨rfl, ready_label _⟩
theorem witness_BBranchesAlwaysUnlessBaseIsZero : BranchReady vectorState 0 10 0x06A 0x00106A ∧
    vectorState.cfg.base0Mode = .sourceNoop := ⟨ready_label 0, rfl⟩

theorem witness_WrittenStatementReadsBack : isLabel ['L', '1'] = true ∧ isLabel ['X', '1'] = true := by decide
theorem witness_ResolvedLabelIsTheBranchTarget : usingOperand [(10, 0x1000)] 0x1FFE = some ⟨4094, 0, 10⟩ ∧
    usingOperand [(10, 0x1000)] 0x1FFF = some ⟨4095, 0, 10⟩ ∧ 0x1FFF < 2 ^ vectorState.cfg.addrBits ∧
    expand (.b 0 10 4094) = .bc 15 (.ofNat 4 0) (.ofNat 4 10) (.ofNat 12 4094) ∧
    (15 : Mask).getLsbD (3 - vectorState.psw.cc.val) = true ∧ 0x1FFE % 2 = 0 ∧
    validAt vectorState 0x1FFE = true ∧ keyOK vectorState 0x1FFE = true ∧
    ∀ r v, (r, v) ∈ [((10 : RegNum), 0x1000)] → readReg vectorState r = some v :=
  ⟨by decide, by decide, by decide, by decide, by decide, by decide, by decide, by decide, fun r v h => by simp only [List.mem_singleton, Prod.mk.injEq] at h; rw [h.1, h.2]; decide⟩

theorem witness_FrameOfEveryInstruction : ∃ t, exec (.b 0 10 0x06A) vectorState = .next t := ⟨_, rfl⟩
/-- A step that branches and a step that does not. -/
theorem witness_StepChangesOnlyTheInstructionAddress :
    stepOn vectorState 0x47F0A06A = .next (setPc (vectorState.withFetchWord 32 0x47F0A06A) 0x00106A) ∧
    stepOn vectorState 0x47FC0006 = .next (setPc (vectorState.withFetchWord 32 0x47FC0006) 0x001004) :=
  ⟨rfl, rfl⟩
theorem witness_StepKeepsTheInvariant : State.Inv (vectorState.withFetchWord 32 0x47F0A06A) ∧
    ∃ t, step (vectorState.withFetchWord 32 0x47F0A06A) = .next t :=
  ⟨⟨by decide, by decide, by decide, by decide, by decide, by decide, by decide, by decide, by decide⟩, ⟨_, rfl⟩⟩
theorem witness_RunExitsExactlyAtAnExitAddress : exitAt exitState 0x001020 = true ∧
    runFor 0 (setPc exitState 0x001020) = .exited (setPc exitState 0x001020) := by decide
theorem witness_EndOfARunIsFinal :
    runFor 1 (setPc vectorState 1) = .faulted (setPc vectorState 1) (.operationException .oddTarget .fetch 1 1) ∧
    runFor 1 vectorState = .refused vectorState (.opcodeOutOfScope 0) := by decide
theorem witness_NoFaultHoldsOfEveryShorterRun : NoFault (runFor (1 + 0) (setPc exitState 0x001020)) := by
  rw [show runFor (1 + 0) (setPc exitState 0x001020) = .exited (setPc exitState 0x001020) from by decide]
  trivial
/-- B.3 row 10: a branch to itself. -/
theorem witness_BranchToItselfRunsForEver : ∃ s, expand (.bc 15 0 10 0) = .bc 15 0 10 0 ∧
    fetch s = .ok (encode (.bc 15 0 10 0)) ∧ (15 : Mask).getLsbD (3 - s.psw.cc.val) = true ∧
    BranchReady s 0 10 0 s.psw.pc ∧ exitAt s s.psw.pc = false :=
  ⟨vectorState.withFetchWord 32 0x47F0A000, rfl, rfl, by decide,
    ⟨by decide, rfl, by decide, by decide, by decide⟩, by decide⟩

end Sys2Proof.Machine.Tests
end

section
/-! PROOFS. The key check of a branch about to be taken (20_memory.md R50). -/

namespace Sys2Proof.Machine

/-- `KeyOK(a)` as the proposition of 20_memory.md R50. -/
theorem keyOK_iff (s : State) (a : Nat) : keyOK s a = true ↔ s.psw.key = 0 ∨ keyAt s a = s.psw.key := by
  simp [keyOK]

/-- A BC about to branch, once its target is formed, goes there exactly when the target passes all
three checks: even, valid, and under `PROTECT_FETCH` of a matching key. -/
theorem branchOnCondition_eq_next_target_iff {s : State} {m : Mask} {idx base : RegNum} {offset : Offset}
    {t : Nat} (hm : m.getLsbD (3 - s.psw.cc.val) = true) (hb : base ≠ 0 ∨ s.cfg.base0Mode = .zeroBase)
    (ht : formTarget s idx base offset = .ok t) :
    branchOnCondition m idx base offset s = .next (setPc s t) ↔
      t % 2 = 0 ∧ validAt s t = true ∧ (s.cfg.protectFetch = true → keyOK s t = true) := by
  constructor
  · intro h
    obtain ⟨hns, _⟩ | ⟨_, t', ht', heven, hvalid, hkey, _⟩ := branchOnCondition_next h
    · rw [(branchSelected_iff s m base).2 ⟨hm, hb⟩] at hns
      cases hns
    · rw [ht] at ht'
      cases ht'
      exact ⟨heven, hvalid, hkey⟩
  · rintro ⟨heven, hvalid, hkey⟩
    exact branchOnCondition_of_ready hm ⟨hb, ht, heven, hvalid, hkey⟩

/-- Settles O24: of the three checks of a target, evenness and validity are given, so what is left is
`KeyOK` of the target, which `PROTECT_FETCH` switches on. -/
theorem keyCheckPassesOnZeroOrEqualKey : Obligations.KeyCheckPassesOnZeroOrEqualKey := by
  unfold Obligations.KeyCheckPassesOnZeroOrEqualKey
  intro i mask idx base offset s t hi hm hb ht heven hvalid hprotect
  rw [exec_of_expand hi, branchOnCondition_eq_next_target_iff hm hb ht, ← keyOK_iff]
  simp [heven, hvalid, hprotect]

end Sys2Proof.Machine
end

section
/-! PROOFS. The word of a BC as a sum of its fields, and its decoding (30_encoding.md R62, R64). -/

namespace Sys2Proof

/-- Joining two fields multiplies the upper one by the weight of its lowest bit. -/
theorem toNat_append_eq_mul_add {m n : Nat} (x : BitVec m) (y : BitVec n) :
    (x ++ y).toNat = x.toNat * 2 ^ n + y.toNat := by
  rw [BitVec.toNat_append, ← Nat.shiftLeft_add_eq_or_of_lt y.isLt, Nat.shiftLeft_eq]

/-- The field of `len` bits from bit `start` up, as quotient and remainder. -/
theorem extractLsb'_eq_of_div_mod {n start len : Nat} {w : BitVec n} {v : BitVec len}
    (h : w.toNat / 2 ^ start % 2 ^ len = v.toNat) : w.extractLsb' start len = v :=
  BitVec.eq_of_toNat_eq (by rw [BitVec.extractLsb'_toNat, Nat.shiftRight_eq_div_pow, h])

/-- `I = 0x47 * 2^24 + mask * 2^20 + idx * 2^16 + base * 2^12 + offset` (30_encoding.md R64). -/
theorem encodeFields_toNat (mask : Mask) (idx base : RegNum) (offset : Offset) :
    (encodeFields mask idx base offset).toNat =
      0x47000000 + mask.toNat * 2 ^ 20 + idx.toNat * 2 ^ 16 + base.toNat * 2 ^ 12 + offset.toNat := by
  unfold encodeFields
  simp only [toNat_append_eq_mul_add, BitVec.toNat_ofNat]
  omega

/-- Every combination of fields is a BC for the decoder: no value of a field is reserved (R62, R68). -/
theorem decodeWord_encodeFields (mask : Mask) (idx base : RegNum) (offset : Offset) :
    decodeWord (encodeFields mask idx base offset) = .instr (.bc mask idx base offset) := by
  have hsum := encodeFields_toNat mask idx base offset
  have hopcode : (encodeFields mask idx base offset).extractLsb' 24 8 = 0x47#8 :=
    extractLsb'_eq_of_div_mod (by rw [BitVec.toNat_ofNat]; omega)
  have hmask : (encodeFields mask idx base offset).extractLsb' 20 4 = mask :=
    extractLsb'_eq_of_div_mod (by omega)
  have hidx : (encodeFields mask idx base offset).extractLsb' 16 4 = idx :=
    extractLsb'_eq_of_div_mod (by omega)
  have hbase : (encodeFields mask idx base offset).extractLsb' 12 4 = base :=
    extractLsb'_eq_of_div_mod (by omega)
  have hoffset : (encodeFields mask idx base offset).extractLsb' 0 12 = offset :=
    extractLsb'_eq_of_div_mod (by omega)
  rw [decodeWord, if_pos hopcode, hmask, hidx, hbase, hoffset]

/-- The sum over numbers in range is the word of those numbers as fields: none of them is cut. -/
theorem ofNat_sum_eq_encodeFields {mask idx base offset : Nat} (hm : mask ≤ 15) (hi : idx ≤ 15)
    (hb : base ≤ 15) (ho : offset ≤ 4095) :
    BitVec.ofNat 32 (0x47000000 + mask * 2 ^ 20 + idx * 2 ^ 16 + base * 2 ^ 12 + offset) =
      encodeFields (.ofNat 4 mask) (.ofNat 4 idx) (.ofNat 4 base) (.ofNat 12 offset) := by
  apply BitVec.eq_of_toNat_eq
  simp only [encodeFields_toNat, BitVec.toNat_ofNat]
  omega

/-- An explicit operand of BC is in range exactly as 30_encoding.md R62 says. -/
theorem Statement.wellFormed_bc_explicit_iff (mask idx base offset : Nat) :
    (Statement.bc mask (.explicit ⟨offset, idx, base⟩)).wellFormed = true ↔
      mask ≤ 15 ∧ base ≤ 15 ∧ idx ≤ 15 ∧ offset ≤ 4095 := by
  simp only [Statement.wellFormed, TargetForm.wellFormed, Operand.wellFormed, Bool.and_eq_true,
    decide_eq_true_eq]
  tauto

end Sys2Proof

namespace Sys2Proof.Machine

/-- Settles O2: the assembler takes exactly the well-formed statements, and the word of the numbers in
range is the word of the fields they fill, which decodes to those fields. -/
theorem everyFieldValueIsABc : Obligations.EveryFieldValueIsABc := by
  unfold Obligations.EveryFieldValueIsABc
  intro mask idx base offset
  constructor
  · rw [assemble_isSome_iff _ _ (by simp), Statement.wellFormed_bc_explicit_iff]
  · intro hm hb hi ho
    rw [ofNat_sum_eq_encodeFields hm hi hb ho, decodeWord_encodeFields]

end Sys2Proof.Machine
end

section
/-! PROOFS. The exceptions of a branch about to be taken: the failing check of its target is the fault of
the instruction and of the run that fetched it (60_exceptions.md R131 to R133, R135). -/

namespace Sys2Proof.Machine

/-- A decoder answers the BC an instruction stands for (30_encoding.md R68; 41_extended_mnemonics.md R90). -/
theorem decodeWord_encode (i : Instr) : decodeWord (encode i) = .instr (expand i) := by
  cases i <;> exact decodeWord_encodeFields _ _ _ _

/-- An instruction means what the BC it stands for means. -/
theorem exec_expand (i : Instr) (s : State) : exec (expand i) s = exec i s := by
  cases i <;> rfl

/-- The step that fetched an instruction's word executes that instruction, the mnemonic through its BC. -/
theorem step_of_fetch_encode {s : State} {i : Instr} (h : fetch s = .ok (encode i)) :
    step s = exec i s := by
  rw [step, h, ← exec_expand]
  simp only [decodeWord_encode]

/-- A run whose next step faults ends there, in the state before that step (60_exceptions.md R135). -/
theorem runFor_succ_of_fault {s : State} {f : Fault} (hx : exitAt s s.psw.pc = false)
    (h : step s = .fault f) (n : Nat) : runFor (n + 1) s = .faulted s f := by
  simp [runFor, hx, h]

/-- A BC about to branch, once its target is formed, raises the exception of the target's failing check. -/
theorem branchOnCondition_of_failingCheck {s : State} {m : Mask} {idx base : RegNum} {offset : Offset}
    {t : Nat} {f : Fault} (hm : m.getLsbD (3 - s.psw.cc.val) = true)
    (hb : base ≠ 0 ∨ s.cfg.base0Mode = .zeroBase) (ht : formTarget s idx base offset = .ok t)
    (hc : checkAddresses s .branch t [t] = some f) :
    branchOnCondition m idx base offset s = .fault f := by
  rw [branchOnCondition, if_pos ((branchSelected_iff s m base).2 ⟨hm, hb⟩)]
  simp only [takeBranch, ht, hc, raise]

/-- The failing check of the target, for any instruction about to branch: the instruction faults with it,
and the run that fetched the instruction ends in the state before it. -/
theorem exec_and_runFor_of_failingCheck {i : Instr} {s : State} {m : Mask} {idx base : RegNum}
    {offset : Offset} {t : Nat} {f : Fault} (hi : expand i = .bc m idx base offset)
    (hm : m.getLsbD (3 - s.psw.cc.val) = true) (hb : base ≠ 0 ∨ s.cfg.base0Mode = .zeroBase)
    (ht : formTarget s idx base offset = .ok t) (hc : checkAddresses s .branch t [t] = some f) :
    exec i s = .fault f ∧
    (fetch s = .ok (encode i) → exitAt s s.psw.pc = false → ∀ n, runFor (n + 1) s = .faulted s f) := by
  have hexec : exec i s = .fault f := by
    rw [exec_of_expand hi, branchOnCondition_of_failingCheck hm hb ht hc]
  refine ⟨hexec, fun hfetch hx n => runFor_succ_of_fault hx ?_ n⟩
  rw [step_of_fetch_encode hfetch, hexec]

/-- A mask of 0 selects no condition code, so NOP completes in every state (41_extended_mnemonics.md R91). -/
theorem exec_nop (idx base : RegNum) (offset : Offset) (s : State) :
    exec (.nop idx base offset) s = .next (setPc s (nextAddress s)) :=
  (exec_of_expand rfl s).trans (branchOnCondition_of_not_selected BitVec.getLsbD_zero)

/-- Settles O21: the first check of the target is its evenness; NOP completes, and so does not fault. -/
theorem oddTargetRaisesOperationException : Obligations.OddTargetRaisesOperationException := by
  unfold Obligations.OddTargetRaisesOperationException
  constructor
  · intro i mask idx base offset s t hi hm hb ht hodd
    refine exec_and_runFor_of_failingCheck hi hm hb ht ?_
    rw [checkAddresses_single, if_pos hodd]
  · intro idx base offset s f
    rw [exec_nop]
    nofun

/-- Settles O22: past the check of evenness, the failing check is the target's validity. -/
theorem invalidTargetRaisesOperationException : Obligations.InvalidTargetRaisesOperationException := by
  unfold Obligations.InvalidTargetRaisesOperationException
  intro i mask idx base offset s t hi hm hb ht heven hinvalid
  refine exec_and_runFor_of_failingCheck hi hm hb ht ?_
  rw [checkAddresses_single, if_neg (by omega), if_pos hinvalid]

/-- Settles O23: past the checks of evenness and validity, the failing check is the target's key. -/
theorem keyMismatchRaisesMemoryProtectException :
    Obligations.KeyMismatchRaisesMemoryProtectException := by
  unfold Obligations.KeyMismatchRaisesMemoryProtectException
  intro i mask idx base offset s t hi hm hb ht heven hvalid hprotect hkey hother
  refine exec_and_runFor_of_failingCheck hi hm hb ht ?_
  rw [checkAddresses_single, if_neg (by omega), if_neg (by simp [hvalid]),
    if_pos ⟨hprotect, not_or.2 ⟨hkey, hother⟩⟩]

end Sys2Proof.Machine
end

section
/-! PROOFS. The word of BC, its fields and its bytes: decoding and encoding undo each other
(00_scope.md R9; 30_encoding.md R60, R64, R68, R70). -/

namespace Sys2Proof

/-- A decoder answers an instruction exactly for a first byte of 0x47: the BC of the word's fields. -/
theorem decodeWord_eq_instr_iff {w : InstrWord} {i : Instr} :
    decodeWord w = .instr i ↔ w.extractLsb' 24 8 = 0x47#8 ∧
      i = .bc (w.extractLsb' 20 4) (w.extractLsb' 16 4) (w.extractLsb' 12 4) (w.extractLsb' 0 12) := by
  unfold decodeWord
  split <;> simp_all [eq_comm]

/-- Any other first byte is the reason the word is rejected. -/
theorem decodeWord_of_opcode_ne {w : InstrWord} (h : w.extractLsb' 24 8 ≠ 0x47#8) :
    decodeWord w = .opcodeOutOfScope (w.extractLsb' 24 8) := by
  rw [decodeWord, if_neg h]

/-- Every field stands in its bits of the BC word (30_encoding.md R60). -/
theorem extractLsb'_encodeFields (mask : Mask) (idx base : RegNum) (offset : Offset) :
    (encodeFields mask idx base offset).extractLsb' 24 8 = 0x47#8 ∧
    (encodeFields mask idx base offset).extractLsb' 20 4 = mask ∧
    (encodeFields mask idx base offset).extractLsb' 16 4 = idx ∧
    (encodeFields mask idx base offset).extractLsb' 12 4 = base ∧
    (encodeFields mask idx base offset).extractLsb' 0 12 = offset := by
  obtain ⟨hopcode, hfields⟩ := decodeWord_eq_instr_iff.1 (decodeWord_encodeFields mask idx base offset)
  obtain ⟨hmask, hidx, hbase, hoffset⟩ := Instr.bc.inj hfields
  exact ⟨hopcode, hmask.symm, hidx.symm, hbase.symm, hoffset.symm⟩

/-- The mask digit follows the opcode: the upper 12 bits of a BC word. -/
theorem extractLsb'_encodeFields_opcode_mask (mask : Mask) (idx base : RegNum) (offset : Offset) :
    (encodeFields mask idx base offset).extractLsb' 20 12 = 0x47#8 ++ mask :=
  extractLsb'_eq_of_div_mod (by
    rw [encodeFields_toNat, toNat_append_eq_mul_add, BitVec.toNat_ofNat]
    omega)

/-- The bytes of a BC word: the fields in pairs of four bits (30_encoding.md R60). -/
theorem bytesOfWord_encodeFields (mask : Mask) (idx base : RegNum) (offset : Offset) :
    bytesOfWord (encodeFields mask idx base offset) =
      [0x47#8, mask ++ idx, base ++ offset.extractLsb' 8 4, offset.extractLsb' 0 8] := by
  have hsum := encodeFields_toNat mask idx base offset
  have hsecond : (encodeFields mask idx base offset).extractLsb' 16 8 = mask ++ idx :=
    extractLsb'_eq_of_div_mod (by rw [toNat_append_eq_mul_add]; omega)
  have hthird : (encodeFields mask idx base offset).extractLsb' 8 8 = base ++ offset.extractLsb' 8 4 :=
    extractLsb'_eq_of_div_mod (by
      rw [toNat_append_eq_mul_add, BitVec.extractLsb'_toNat, Nat.shiftRight_eq_div_pow]
      omega)
  have hfourth : (encodeFields mask idx base offset).extractLsb' 0 8 = offset.extractLsb' 0 8 :=
    extractLsb'_eq_of_div_mod (by
      rw [BitVec.extractLsb'_toNat, Nat.shiftRight_eq_div_pow]
      omega)
  rw [bytesOfWord, (extractLsb'_encodeFields mask idx base offset).1, hsecond, hthird, hfourth]

/-- Decoding, then encoding, gives the word back. -/
theorem encode_of_decodeWord {w : InstrWord} {i : Instr} (h : decodeWord w = .instr i) : encode i = w := by
  obtain ⟨hopcode, rfl⟩ := decodeWord_eq_instr_iff.1 h
  have hopcode' := congrArg BitVec.toNat hopcode
  apply BitVec.eq_of_toNat_eq
  rw [encode, encodeFields_toNat]
  simp only [BitVec.extractLsb'_toNat, Nat.shiftRight_eq_div_pow, BitVec.toNat_ofNat] at hopcode' ⊢
  omega

/-- An extended mnemonic has the word of the BC it stands for (41_extended_mnemonics.md R90). -/
theorem encode_expand (i : Instr) : encode (expand i) = encode i :=
  encode_of_decodeWord (Machine.decodeWord_encode i)

/-- `I and 0xFF000000` is the first byte with 24 zero bits after it (30_encoding.md R64). -/
theorem and_opcodeMask_toNat (w : InstrWord) :
    (w &&& 0xFF000000#32).toNat = (w.extractLsb' 24 8).toNat * 2 ^ 24 := by
  have hmask : (0xFF000000#32).toNat = (2 ^ 8 - 1) * 2 ^ 24 := by decide
  rw [BitVec.toNat_and, hmask, BitVec.extractLsb'_toNat]
  apply Nat.eq_of_testBit_eq
  intro i
  simp only [Nat.testBit_and, Nat.testBit_mul_two_pow, Nat.testBit_two_pow_sub_one,
    Nat.testBit_mod_two_pow, Nat.testBit_shiftRight]
  by_cases h : 24 ≤ i
  · rw [Nat.add_sub_cancel' h]
    simp [h, Bool.and_comm]
  · simp [h]

/-- The test of 30_encoding.md R64 on a word is the test of its first byte. -/
theorem and_opcodeMask_eq_iff (w : InstrWord) :
    w &&& 0xFF000000#32 = 0x47000000#32 ↔ w.extractLsb' 24 8 = 0x47#8 := by
  rw [← BitVec.toNat_inj, ← BitVec.toNat_inj, and_opcodeMask_toNat, BitVec.toNat_ofNat, BitVec.toNat_ofNat]
  omega

/-- `I = b1 * 2^24 + b2 * 2^16 + b3 * 2^8 + b4` (00_scope.md R9). -/
theorem wordOfBytes_toNat (b1 b2 b3 b4 : Byte) :
    (wordOfBytes [b1, b2, b3, b4]).toNat =
      b1.toNat * 2 ^ 24 + b2.toNat * 2 ^ 16 + b3.toNat * 2 ^ 8 + b4.toNat := by
  simp only [wordOfBytes, List.foldl, BitVec.toNat_ofNat]
  omega

/-- The bytes of a word made of four bytes are those four. -/
theorem bytesOfWord_wordOfBytes (b1 b2 b3 b4 : Byte) :
    bytesOfWord (wordOfBytes [b1, b2, b3, b4]) = [b1, b2, b3, b4] := by
  have hsum := wordOfBytes_toNat b1 b2 b3 b4
  have h1 : (wordOfBytes [b1, b2, b3, b4]).extractLsb' 24 8 = b1 := extractLsb'_eq_of_div_mod (by omega)
  have h2 : (wordOfBytes [b1, b2, b3, b4]).extractLsb' 16 8 = b2 := extractLsb'_eq_of_div_mod (by omega)
  have h3 : (wordOfBytes [b1, b2, b3, b4]).extractLsb' 8 8 = b3 := extractLsb'_eq_of_div_mod (by omega)
  have h4 : (wordOfBytes [b1, b2, b3, b4]).extractLsb' 0 8 = b4 := extractLsb'_eq_of_div_mod (by omega)
  rw [bytesOfWord, h1, h2, h3, h4]

/-- The first byte is the upper eight bits of the word. -/
theorem extractLsb'_wordOfBytes_opcode (b1 b2 b3 b4 : Byte) :
    (wordOfBytes [b1, b2, b3, b4]).extractLsb' 24 8 = b1 :=
  (List.cons.inj (bytesOfWord_wordOfBytes b1 b2 b3 b4)).1

/-- The word made of a word's bytes is that word. -/
theorem wordOfBytes_bytesOfWord (w : InstrWord) : wordOfBytes (bytesOfWord w) = w := by
  apply BitVec.eq_of_toNat_eq
  rw [bytesOfWord, wordOfBytes_toNat]
  simp only [BitVec.extractLsb'_toNat, Nat.shiftRight_eq_div_pow]
  omega

/-- A decoder reads the first four bytes and leaves the others (30_encoding.md R63). -/
theorem decode_bytesOfWord_append (w : InstrWord) (rest : List Byte) :
    decode (bytesOfWord w ++ rest) = .done (decodeWord w) rest := by
  conv_rhs => rw [← wordOfBytes_bytesOfWord w]
  rfl

end Sys2Proof

namespace Sys2Proof.Machine

/-- Settles O3: the decoder's answer names the word's fields, so encoding it gives the word back; the test
of R64 is the test of the first byte, the decoder's own. -/
theorem decodeAndEncodeAreInverseOnBc : Obligations.DecodeAndEncodeAreInverseOnBc := by
  unfold Obligations.DecodeAndEncodeAreInverseOnBc
  refine ⟨fun mask idx base offset => ⟨decodeWord_encode _, encodeFields_toNat mask idx base offset⟩,
    fun w hw => ?_, fun w hw => ?_⟩
  · have hdecode := decodeWord_eq_instr_iff.2 ⟨(and_opcodeMask_eq_iff w).1 hw, rfl⟩
    exact ⟨_, hdecode, encode_of_decodeWord hdecode⟩
  · exact decodeWord_of_opcode_ne (mt (and_opcodeMask_eq_iff w).2 hw)

/-- Settles O4: the decoder puts the four bytes together again and answers the BC of the word. -/
theorem everyInstructionDecodesToItsBc : Obligations.EveryInstructionDecodesToItsBc := by
  unfold Obligations.EveryInstructionDecodesToItsBc
  intro i rest
  rw [encodeBytes, decode_bytesOfWord_append, decodeWord_encode]

/-- Settles O1: the fields are what the decoder reads, and the bytes are the word's bits in fours. -/
theorem bcWordHoldsItsFieldsInTheirBits : Obligations.BcWordHoldsItsFieldsInTheirBits := by
  unfold Obligations.BcWordHoldsItsFieldsInTheirBits
  intro mask idx base offset
  obtain ⟨hopcode, hmask, hidx, hbase, hoffset⟩ := extractLsb'_encodeFields mask idx base offset
  exact ⟨hopcode, hmask, hidx, hbase, hoffset, bytesOfWord_encodeFields mask idx base offset⟩

/-- Settles O5: the weights of the bytes are powers of 256, so each byte is a digit of the sum. -/
theorem wordOfBytesIsBigEndian : Obligations.WordOfBytesIsBigEndian := by
  unfold Obligations.WordOfBytesIsBigEndian
  exact fun b1 b2 b3 b4 => ⟨wordOfBytes_toNat b1 b2 b3 b4, bytesOfWord_wordOfBytes b1 b2 b3 b4⟩

/-- Settles O6: the decoder evaluates on each printed word. -/
theorem printedWordsDecodeAsPrinted : Obligations.PrintedWordsDecodeAsPrinted := by
  unfold Obligations.PrintedWordsDecodeAsPrinted
  decide

end Sys2Proof.Machine
end

section
/-! PROOFS. The fetch: its checks, the four bytes it reads and the step that follows it (20_memory.md R43,
R45, R49, R51; 30_encoding.md R70; 60_exceptions.md R136). -/

namespace Sys2Proof.Machine

/-- A check of an even address, one of whose addresses is not valid, names the first such address. -/
theorem checkAddresses_of_first_invalid {s : State} {against : Access} {a x : Nat} {l before after : List Nat}
    (heven : a % 2 = 0) (hl : l = before ++ x :: after) (hbefore : ∀ y ∈ before, validAt s y = true)
    (hx : validAt s x = false) :
    checkAddresses s against a l = some (.operationException .invalidTarget against s.psw.pc x) := by
  have hfind : l.find? (fun y => !validAt s y) = some x :=
    List.find?_eq_some_iff_append.2 ⟨by simp [hx], before, after, hl, by simpa using hbefore⟩
  rw [checkAddresses, if_neg (by omega), hfind]

/-- A check of an even address, all of whose addresses are valid, names under `PROTECT_FETCH` the first
that the process's key does not match. -/
theorem checkAddresses_of_first_mismatch {s : State} {against : Access} {a x : Nat} {l before after : List Nat}
    (heven : a % 2 = 0) (hvalid : ∀ y ∈ l, validAt s y = true) (hl : l = before ++ x :: after)
    (hprotect : s.cfg.protectFetch = true) (hbefore : ∀ y ∈ before, keyOK s y = true)
    (hx : keyOK s x = false) :
    checkAddresses s against a l =
      some (.memoryProtectException against s.psw.pc x (keyAt s x) s.psw.key) := by
  have hnone : l.find? (fun y => !validAt s y) = none :=
    List.find?_eq_none.2 (by simpa using hvalid)
  have hfind : l.find? (fun y => s.cfg.protectFetch && !keyOK s y) = some x :=
    List.find?_eq_some_iff_append.2
      ⟨by simp [hprotect, hx], before, after, hl, by simpa [hprotect] using hbefore⟩
  rw [checkAddresses, if_neg (by omega), hnone, hfind]

/-! ### The step after the fetch -/

/-- A failed check of the fetch is the fault of the step. -/
theorem step_of_fetchFault {s : State} {f : Fault} (h : fetchFault s = some f) : step s = .fault f := by
  simp only [step, fetch, h, raise]

/-- The step that fetched an instruction's word is that instruction. -/
theorem step_of_decodeWord {s : State} {w : InstrWord} {i : Instr} (hf : fetch s = .ok w)
    (hd : decodeWord w = .instr i) : step s = exec i s := by
  simp only [step, hf, hd]

/-- The step that fetched a word with a first byte other than 0x47 is refused by that byte. -/
theorem step_of_opcode_ne {s : State} {w : InstrWord} (hf : fetch s = .ok w)
    (hw : w.extractLsb' 24 8 ≠ 0x47#8) : step s = .refused (.opcodeOutOfScope (w.extractLsb' 24 8)) := by
  simp only [step, hf, decodeWord_of_opcode_ne hw]

/-- A run whose next step is refused ends there. -/
theorem runFor_succ_of_refused {s : State} {r : Refusal} (hx : exitAt s s.psw.pc = false)
    (h : step s = .refused r) (n : Nat) : runFor (n + 1) s = .refused s r := by
  simp [runFor, hx, h]

/-- A fetch that passes answers the word of the four bytes at `pc`. -/
theorem fetch_of_fetchable {s : State} (heven : EvenPc s) (hpc : FetchablePc s) :
    fetch s = .ok (wordOfBytes [readByte s.mem s.psw.pc,
      readByte s.mem (trunc s.cfg.addrBits (s.psw.pc + 1)),
      readByte s.mem (trunc s.cfg.addrBits (s.psw.pc + 2)),
      readByte s.mem (trunc s.cfg.addrBits (s.psw.pc + 3))]) := by
  rw [← memRead_four]
  exact fetch_ok_iff.2 ⟨heven, hpc, rfl⟩

/-- Settles O7: the bytes that decode to the instruction are those of the word fetched. -/
theorem stepRunsTheDecodedInstruction : Obligations.StepRunsTheDecodedInstruction := by
  unfold Obligations.StepRunsTheDecodedInstruction
  intro s i heven hpc hdecode
  rw [memRead_four] at hdecode
  exact step_of_decodeWord (fetch_of_fetchable heven hpc) (DecodedBytes.done.inj hdecode).1

/-- Settles O8: the byte at `pc` is the first byte of the word fetched. -/
theorem everyOtherOpcodeIsRefused : Obligations.EveryOtherOpcodeIsRefused := by
  unfold Obligations.EveryOtherOpcodeIsRefused
  intro s heven hpc hbyte
  have hfetch := fetch_of_fetchable heven hpc
  have hstep : step s = .refused (.opcodeOutOfScope (readByte s.mem s.psw.pc)) := by
    rw [step_of_opcode_ne hfetch (by rwa [extractLsb'_wordOfBytes_opcode]), extractLsb'_wordOfBytes_opcode]
  exact ⟨hstep, fun n hx => runFor_succ_of_refused hx hstep n⟩

/-- Settles O9: the fetch's word is that of the four bytes, the first the most significant. -/
theorem fetchReadsTheFourBytesAtPc : Obligations.FetchReadsTheFourBytesAtPc := by
  unfold Obligations.FetchReadsTheFourBytesAtPc
  exact fun s heven hpc => ⟨_, fetch_of_fetchable heven hpc, wordOfBytes_toNat _ _ _ _⟩

/-- Settles O10: each clause gives the first check of the fetch that fails. -/
theorem fetchFaultsOddThenInvalidThenKey : Obligations.FetchFaultsOddThenInvalidThenKey := by
  unfold Obligations.FetchFaultsOddThenInvalidThenKey
  refine fun s => ⟨fun hodd => step_of_fetchFault ?_,
    fun before a after heven hl hbefore ha => step_of_fetchFault ?_,
    fun before a after heven hl hvalid hprotect hbefore hkey ha => step_of_fetchFault ?_⟩
  · rw [fetchFault, checkAddresses, if_pos hodd]
  · exact checkAddresses_of_first_invalid heven hl hbefore ha
  · exact checkAddresses_of_first_mismatch heven hvalid hl hprotect hbefore
      (Bool.eq_false_iff.2 (mt (keyOK_iff s a).1 (not_or.2 ⟨hkey, ha⟩)))

/-! ### A word placed at `pc` -/

/-- Going on from an address by less than the size of the address space comes to another address. -/
theorem trunc_add_ne_self {n a k : Nat} (ha : a < 2 ^ n) (hk : 0 < k) (hkn : k < 2 ^ n) :
    trunc n (a + k) ≠ a := by
  unfold trunc
  by_cases h : a + k < 2 ^ n
  · rw [Nat.mod_eq_of_lt h]
    omega
  · rw [Nat.mod_eq_sub_mod (by omega), Nat.mod_eq_of_lt (by omega)]
    omega

@[simp] theorem trunc_trunc_add (n a k : Nat) : trunc n (trunc n a + k) = trunc n (a + k) :=
  Nat.mod_add_mod a (2 ^ n) k

theorem trunc_of_lt {n a : Nat} (h : a < 2 ^ n) : trunc n a = a := Nat.mod_eq_of_lt h

theorem trunc_lt (n a : Nat) : trunc n a < 2 ^ n := Nat.mod_lt _ (Nat.two_pow_pos n)

/-- Storing bytes leaves every address that gets none of them as it was. -/
theorem readByte_memWrite_other {n b : Nat} {bytes : List Byte} :
    ∀ {m : Memory} {a : Nat}, a < 2 ^ n → (∀ k < bytes.length, b ≠ trunc n (a + k)) →
      readByte (memWrite n m a bytes) b = readByte m b := by
  induction bytes with
  | nil => intros; rfl
  | cons v rest ih =>
    intro m a ha hb
    have hfirst : b ≠ a := by simpa [trunc_of_lt ha] using hb 0 (by simp)
    rw [memWrite, ih (trunc_lt n _), readByte_writeByte_other v hfirst]
    intro k hk
    rw [trunc_trunc_add, Nat.add_assoc, Nat.add_comm 1 k]
    exact hb (k + 1) (by simpa using hk)

/-- Bytes stored, no more than the address space holds, read back. -/
theorem memRead_memWrite {n : Nat} {bytes : List Byte} :
    ∀ {m : Memory} {a : Nat}, Memory.wf m = true → a < 2 ^ n → bytes.length ≤ 2 ^ n →
      memRead n (memWrite n m a bytes) a bytes.length = bytes := by
  induction bytes with
  | nil => intros; rfl
  | cons v rest ih =>
    intro m a hm ha hlen
    rw [List.length_cons] at hlen
    have hfirst : readByte (memWrite n (writeByte m a v) (trunc n (a + 1)) rest) a = v := by
      rw [readByte_memWrite_other (trunc_lt n _), readByte_writeByte_same v hm]
      intro k hk
      rw [trunc_trunc_add, Nat.add_assoc]
      exact (trunc_add_ne_self ha (by omega) (by omega)).symm
    rw [List.length_cons, memRead, memWrite, hfirst,
      ih (wf_writeByte a v hm) (trunc_lt n _) (by omega)]

/-- Placing bytes at `pc` changes nothing that the checks of the fetch read. -/
theorem fetchablePc_placeAtPc {s : State} {bytes : List Byte} :
    FetchablePc (placeAtPc s bytes) ↔ FetchablePc s := Iff.rfl

/-- The word placed at `pc` is the word fetched. -/
theorem fetch_placeAtPc_bytesOfWord {s : State} (w : InstrWord) (hs : State.Inv s) (hpc : FetchablePc s) :
    fetch (placeAtPc s (bytesOfWord w)) = .ok w := by
  have hbits : 13 ≤ s.cfg.addrBits := by
    have hcfg := hs.cfg
    simp only [configWf, Bool.and_eq_true, decide_eq_true_eq] at hcfg
    exact hcfg.1.1.1
  have hspace : (bytesOfWord w).length ≤ 2 ^ s.cfg.addrBits :=
    le_trans (by decide : 4 ≤ 2 ^ 13) (Nat.pow_le_pow_right (by decide) hbits)
  refine fetch_ok_iff.2 ⟨hs.pc_even, fetchablePc_placeAtPc.2 hpc, ?_⟩
  have hread := memRead_memWrite hs.mem_wf hs.pc_lt hspace
  exact (wordOfBytes_bytesOfWord w).symm.trans (congrArg wordOfBytes hread.symm)

/-- Settles O11: bytes stored at `pc` read back from there, in storage that stays canonical, and the four
addresses stored to are those of the fetch. -/
theorem placedWordIsFetchedNext : Obligations.PlacedWordIsFetchedNext := by
  unfold Obligations.PlacedWordIsFetchedNext
  intro s w hs hpc
  have hword : BitVec.ofNat 32 (w % 2 ^ 32) = BitVec.ofNat 32 w := BitVec.eq_of_toNat_eq (by simp)
  rw [State.withFetchWord, tableBytes, hword]
  refine ⟨fetch_placeAtPc_bytesOfWord _ hs hpc, wf_memWrite _ _ _ hs.mem_wf, fun a ha => ?_⟩
  simp only [fetchAddresses, List.mem_cons, List.not_mem_nil, or_false, not_or] at ha
  obtain ⟨h0, h1, h2, h3⟩ := ha
  refine readByte_memWrite_other hs.pc_lt fun k hk => ?_
  match k, hk with
  | 0, _ => rwa [Nat.add_zero, trunc_of_lt hs.pc_lt]
  | 1, _ => exact h1
  | 2, _ => exact h2
  | 3, _ => exact h3

end Sys2Proof.Machine
end

section
/-! PROOFS. BC in every state: what selects its branch, what a branch about to be taken answers, and the sum
it goes to (40_branch_on_condition.md R80 to R87; 60_exceptions.md R131 to R136). -/

namespace Sys2Proof.Machine

/-! ### Registers and the sum -/

/-- What a register field contributes, as 40_branch_on_condition.md R80 and R86 write it. -/
theorem registerOperand_eq_ok_iff {s : State} {r : RegNum} {v : Nat} :
    registerOperand s r = .ok v ↔ (if r = 0 then some 0 else readReg s r) = some v := by
  unfold registerOperand
  split
  · simp
  · cases readReg s r <;> simp

/-- A register field that contributes nothing names a register without a value. -/
theorem registerOperand_eq_error {s : State} {r : RegNum}
    (h : (if r = 0 then some 0 else readReg s r) = none) :
    registerOperand s r = .error (.unwrittenRegister r) := by
  split at h
  · cases h
  · rename_i hr
    exact registerOperand_of_noValue hr h

/-- The base register is read first, so its fault comes first. -/
theorem formTarget_of_base_error {s : State} {idx base : RegNum} {offset : Offset} {f : Fault}
    (hb : registerOperand s base = .error f) : formTarget s idx base offset = .error f := by
  simp only [formTarget, hb]

/-- With a base value, the index register's fault is that of the target. -/
theorem formTarget_of_index_error {s : State} {idx base : RegNum} {offset : Offset} {bv : Nat} {f : Fault}
    (hb : registerOperand s base = .ok bv) (hi : registerOperand s idx = .error f) :
    formTarget s idx base offset = .error f := by
  simp only [formTarget, hb, hi]

/-- The two values of the sum may be exchanged. -/
theorem targetAddress_comm (addrBits bv iv : Nat) (offset : Offset) :
    targetAddress addrBits bv iv offset = targetAddress addrBits iv bv offset := by
  rw [targetAddress, targetAddress, Nat.add_comm (trunc addrBits bv)]

/-- Reducing the register values before the sum changes nothing. -/
theorem targetAddress_eq_mod (addrBits bv iv : Nat) (offset : Offset) :
    targetAddress addrBits bv iv offset = (bv + iv + offset.toNat) % 2 ^ addrBits := by
  simp [targetAddress, trunc, Nat.add_mod]

/-- A register field that is not 0 and has a value contributes the register's contents. -/
theorem registerOperand_ok_of_ne_zero {s : State} {r : RegNum} {v : Nat}
    (h : registerOperand s r = .ok v) (hr : r ≠ 0) : v = regAt s r := by
  obtain ⟨h0, _⟩ | ⟨_, _, hv⟩ := registerOperand_ok h
  · exact absurd h0 hr
  · exact hv

/-- A register field of 0 contributes 0. -/
theorem registerOperand_ok_of_eq_zero {s : State} {r : RegNum} {v : Nat}
    (h : registerOperand s r = .ok v) (hr : r = 0) : v = 0 := by
  obtain ⟨_, hv⟩ | ⟨hn, _, _⟩ := registerOperand_ok h
  · exact hv
  · exact absurd hr hn

/-- Settles O18: a field that is not 0 contributes its register's contents and a field of 0 contributes 0. -/
theorem targetIsTheModularSum : Obligations.TargetIsTheModularSum := by
  unfold Obligations.TargetIsTheModularSum
  intro s idx base offset t h
  obtain ⟨bv, iv, hbv, hiv, rfl⟩ := formTarget_ok.1 h.target
  have hbase := registerOperand_ok_of_ne_zero hbv
  have hbase0 := registerOperand_ok_of_eq_zero hbv
  have hidx := registerOperand_ok_of_ne_zero hiv
  have hidx0 := registerOperand_ok_of_eq_zero hiv
  rw [targetAddress_eq_mod]
  refine ⟨fun hb hi => ?_, fun hb hi => ?_, fun hb hi => ?_, fun hb hi => ?_, fun hb hi => ?_⟩
  · rw [hbase hb, hidx hi]
  · rw [hbase hb, hidx0 hi, Nat.add_zero]
  · rw [hbase0 hb, hidx hi, Nat.zero_add]
  · rw [hbase0 hb, hidx0 hi, Nat.zero_add]
  · rw [hbase hb, hidx (hi ▸ hb), hi, Nat.two_mul]

/-! ### A branch about to be taken -/

/-- A fault in forming the target is the fault of the branch. -/
theorem takeBranch_of_formTarget_error {s : State} {idx base : RegNum} {offset : Offset} {f : Fault}
    (h : formTarget s idx base offset = .error f) : takeBranch s idx base offset = .fault f := by
  simp only [takeBranch, h, raise]

/-- Once its target is formed, a branch raises the first failing check of the target or goes there
(60_exceptions.md R134). -/
theorem takeBranch_of_formTarget_ok {s : State} {idx base : RegNum} {offset : Offset} {t : Nat}
    (h : formTarget s idx base offset = .ok t) :
    takeBranch s idx base offset =
      if t % 2 = 1 then .fault (.operationException .oddTarget .branch s.psw.pc t)
      else if validAt s t = false then .fault (.operationException .invalidTarget .branch s.psw.pc t)
      else if s.cfg.protectFetch = true ∧ ¬ (s.psw.key = 0 ∨ keyAt s t = s.psw.key) then
        .fault (.memoryProtectException .branch s.psw.pc t (keyAt s t) s.psw.key)
      else .next (setPc s t) := by
  simp only [takeBranch, h, checkAddresses_single, raise]
  split_ifs <;> rfl

/-- The pseudocode of a branch about to be taken, once the base value is there: the index value, the sum and
its checks (40_branch_on_condition.md R80, R86). -/
theorem takeBranch_of_base_value {s : State} {idx base : RegNum} {offset : Offset} {bv : Nat}
    (hb : registerOperand s base = .ok bv) :
    takeBranch s idx base offset =
      match (if idx = 0 then some 0 else readReg s idx) with
      | none => .fault (.unwrittenRegister idx)
      | some iv =>
        let t := targetAddress s.cfg.addrBits bv iv offset
        if t % 2 = 1 then .fault (.operationException .oddTarget .branch s.psw.pc t)
        else if validAt s t = false then .fault (.operationException .invalidTarget .branch s.psw.pc t)
        else if s.cfg.protectFetch = true ∧ ¬ (s.psw.key = 0 ∨ keyAt s t = s.psw.key) then
          .fault (.memoryProtectException .branch s.psw.pc t (keyAt s t) s.psw.key)
        else .next (setPc s t) := by
  split
  · rename_i hi
    exact takeBranch_of_formTarget_error (formTarget_of_index_error hb (registerOperand_eq_error hi))
  · rename_i iv hi
    exact takeBranch_of_formTarget_ok (formTarget_ok.2 ⟨bv, iv, hb, registerOperand_eq_ok_iff.2 hi, rfl⟩)

/-! ### What selects the branch -/

/-- A BC about to branch takes its branch. -/
theorem branchOnCondition_of_branchSelected {s : State} {m : Mask} {idx base : RegNum} {offset : Offset}
    (h : branchSelected s m base = true) :
    branchOnCondition m idx base offset s = takeBranch s idx base offset := by
  rw [branchOnCondition, if_pos h]

/-- A BC not about to branch goes to the next instruction. -/
theorem branchOnCondition_of_branchSelected_eq_false {s : State} {m : Mask} {idx base : RegNum}
    {offset : Offset} (h : branchSelected s m base = false) :
    branchOnCondition m idx base offset s = .next (setPc s (nextAddress s)) := by
  rw [branchOnCondition, h]
  rfl

/-- A base field that is not 0 leaves the choice to the mask bit, under every setting. -/
theorem branchSelected_of_base_ne_zero {base : RegNum} (s : State) (m : Mask) (h : base ≠ 0) :
    branchSelected s m base = ccBit m s.psw.cc := by
  rw [branchSelected, bne_iff_ne.2 h, Bool.or_true, Bool.and_true]

/-- A base field of 0 stops every branch under the spec's setting (40_branch_on_condition.md R84). -/
theorem exec_of_base_zero {i : Instr} {s : State} {m : Mask} {idx : RegNum} {offset : Offset}
    (hi : expand i = .bc m idx 0 offset) (hs : s.cfg.base0Mode = .sourceNoop) :
    exec i s = .next (setPc s (nextAddress s)) := by
  rw [exec_of_expand hi]
  exact branchOnCondition_of_branchSelected_eq_false (by simp [branchSelected, hs])

/-- An instruction whose mask bit is 0 goes to the next instruction. -/
theorem exec_of_not_selected {i : Instr} {s : State} {m : Mask} {idx base : RegNum} {offset : Offset}
    (hi : expand i = .bc m idx base offset) (hm : m.getLsbD (3 - s.psw.cc.val) = false) :
    exec i s = .next (setPc s (nextAddress s)) := by
  rw [exec_of_expand hi, branchOnCondition_of_not_selected hm]

/-- An instruction whose mask bit is 1, in a state where a branch may be taken, takes it. -/
theorem exec_of_ready {i : Instr} {s : State} {m : Mask} {idx base : RegNum} {offset : Offset} {t : Nat}
    (hi : expand i = .bc m idx base offset) (hm : m.getLsbD (3 - s.psw.cc.val) = true)
    (h : BranchReady s idx base offset t) : exec i s = .next (setPc s t) := by
  rw [exec_of_expand hi, branchOnCondition_of_ready hm h]

/-- Every mask bit of 15 is 1. -/
theorem getLsbD_fifteen (cc : CondCode) : (15 : Mask).getLsbD (3 - cc.val) = true := by
  revert cc
  decide

/-- Settles O16: a mask of 0 has no bit that is 1, and a base field of 0 stops the branch. -/
theorem zeroMaskOrZeroBaseIsANoOperation : Obligations.ZeroMaskOrZeroBaseIsANoOperation := by
  unfold Obligations.ZeroMaskOrZeroBaseIsANoOperation
  rintro i mask idx base offset s hi (rfl | ⟨rfl, hs⟩)
  · exact exec_of_not_selected hi BitVec.getLsbD_zero
  · exact exec_of_base_zero hi hs

/-- Settles O17: every bit of mask 15 is 1, so only the base field can stop the branch. -/
theorem maskFifteenIsUnconditional : Obligations.MaskFifteenIsUnconditional := by
  unfold Obligations.MaskFifteenIsUnconditional
  refine fun idx base offset s => ⟨fun t ht => exec_of_ready rfl (getLsbD_fifteen _) ht, ?_⟩
  rintro rfl hs
  exact exec_of_base_zero rfl hs

/-- Settles O20: in the second clause the index field is 0, so the base register and the offset make up the
sum. -/
theorem zeroBaseAndZeroIndexDiffer : Obligations.ZeroBaseAndZeroIndexDiffer := by
  unfold Obligations.ZeroBaseAndZeroIndexDiffer
  refine fun r offset s hs => ⟨exec_of_base_zero rfl hs,
    fun t ht => ⟨exec_of_ready rfl (getLsbD_fifteen _) ht, ?_⟩⟩
  have hr : r ≠ 0 := ht.base_serves.resolve_right (by simp [hs])
  obtain ⟨_, hsum, _⟩ := targetIsTheModularSum s 0 r offset t ht
  exact hsum hr rfl

/-! ### The pseudocode -/

/-- Settles O12: where the branch is selected the base field is not 0, so the base register is read. -/
theorem bcFollowsItsPseudocode : Obligations.BcFollowsItsPseudocode := by
  unfold Obligations.BcFollowsItsPseudocode
  intro mask idx base offset s hs
  rw [exec_of_expand rfl]
  split
  · rename_i hsel
    rw [branchOnCondition_of_branchSelected ((branchSelected_iff s mask base).2 ⟨hsel.1, .inl hsel.2⟩)]
    split
    · rename_i hb
      exact takeBranch_of_formTarget_error (formTarget_of_base_error (registerOperand_of_noValue hsel.2 hb))
    · rename_i bv hb
      exact takeBranch_of_base_value (registerOperand_of_value hsel.2 hb)
  · rename_i hsel
    refine branchOnCondition_of_branchSelected_eq_false (Bool.eq_false_iff.2 fun h => hsel ?_)
    simpa [hs] using (branchSelected_iff s mask base).1 h

/-- Settles O13: the mask bit alone selects the branch, and a base field of 0 contributes 0. -/
theorem bcUnderZeroBaseFollowsItsPseudocode : Obligations.BcUnderZeroBaseFollowsItsPseudocode := by
  unfold Obligations.BcUnderZeroBaseFollowsItsPseudocode
  intro mask idx base offset s hs
  rw [exec_of_expand rfl]
  split
  · rename_i hm
    rw [branchOnCondition_of_branchSelected ((branchSelected_iff s mask base).2 ⟨hm, .inr hs⟩)]
    split
    · rename_i hb
      exact takeBranch_of_formTarget_error (formTarget_of_base_error (registerOperand_eq_error hb))
    · rename_i bv hb
      exact takeBranch_of_base_value (registerOperand_eq_ok_iff.2 hb)
  · rename_i hm
    exact branchOnCondition_of_not_selected (Bool.eq_false_iff.2 hm)

/-! ### Two settings, two orders of the fields -/

/-- States that differ in `pc` alone are told apart by it. -/
theorem setPc_inj {s : State} {t u : Nat} : setPc s t = setPc s u ↔ t = u :=
  ⟨fun h => congrArg (fun v => v.psw.pc) h, fun h => h ▸ rfl⟩

/-- `s` under another `BASE0_MODE` (00_scope.md R6). -/
def withBase0Mode (s : State) (mode : Base0Mode) : State :=
  { s with cfg := { s.cfg with base0Mode := mode } }

/-- A branch about to be taken does not read `BASE0_MODE`: it answers the same fault, or the same address. -/
theorem takeBranch_withBase0Mode (s : State) (mode : Base0Mode) (idx base : RegNum) (offset : Offset) :
    (∃ f, takeBranch s idx base offset = .fault f ∧
      takeBranch (withBase0Mode s mode) idx base offset = .fault f) ∨
    (∃ t, takeBranch s idx base offset = .next (setPc s t) ∧
      takeBranch (withBase0Mode s mode) idx base offset = .next (setPc (withBase0Mode s mode) t)) := by
  have htarget : formTarget (withBase0Mode s mode) idx base offset = formTarget s idx base offset := rfl
  have hcheck : ∀ t, checkAddresses (withBase0Mode s mode) .branch t [t] = checkAddresses s .branch t [t] :=
    fun _ => rfl
  unfold takeBranch
  rw [htarget]
  cases formTarget s idx base offset with
  | error f => exact .inl ⟨f, rfl, rfl⟩
  | ok t =>
    simp only [hcheck]
    cases checkAddresses s .branch t [t] with
    | some f => exact .inl ⟨f, rfl, rfl⟩
    | none => exact .inr ⟨t, rfl, rfl⟩

/-- Off base field 0, and for mask 0, BC answers the same fault or the same address under every setting
(40_branch_on_condition.md R86). -/
theorem branchOnCondition_withBase0Mode (s : State) (mode : Base0Mode) {m : Mask} (idx : RegNum)
    {base : RegNum} (offset : Offset) (h : base ≠ 0 ∨ m = 0) :
    (∃ f, branchOnCondition m idx base offset s = .fault f ∧
      branchOnCondition m idx base offset (withBase0Mode s mode) = .fault f) ∨
    (∃ t, branchOnCondition m idx base offset s = .next (setPc s t) ∧
      branchOnCondition m idx base offset (withBase0Mode s mode) =
        .next (setPc (withBase0Mode s mode) t)) := by
  have hselected : branchSelected (withBase0Mode s mode) m base = branchSelected s m base := by
    rcases h with hb | rfl
    · rw [branchSelected_of_base_ne_zero _ m hb, branchSelected_of_base_ne_zero _ m hb]
      rfl
    · simp [branchSelected, ccBit]
  unfold branchOnCondition
  rw [hselected]
  split
  · exact takeBranch_withBase0Mode s mode idx base offset
  · exact .inr ⟨nextAddress s, rfl, rfl⟩

/-- Settles O14: both settings answer one fault, or one address, which tells the next states apart. -/
theorem settingsAgreeOffBaseZero : Obligations.SettingsAgreeOffBaseZero := by
  unfold Obligations.SettingsAgreeOffBaseZero
  intro mask idx base offset s z _ hmode h
  obtain rfl : z = withBase0Mode s .zeroBase := hmode
  have hexec : ∀ u, exec (.bc mask idx base offset) u = branchOnCondition mask idx base offset u :=
    exec_of_expand rfl
  obtain ⟨f, hs, hz⟩ | ⟨t, hs, hz⟩ := branchOnCondition_withBase0Mode s .zeroBase idx offset h
  · simp [hexec, hs, hz]
  · simp [hexec, hs, hz, setPc_inj]

/-- With values in both registers, the target does not depend on which of them is the base. -/
theorem formTarget_comm {s : State} {idx base : RegNum} {offset : Offset} {bv iv : Nat}
    (hb : registerOperand s base = .ok bv) (hi : registerOperand s idx = .ok iv) :
    formTarget s idx base offset = formTarget s base idx offset := by
  rw [formTarget_ok.2 ⟨bv, iv, hb, hi, rfl⟩, formTarget_ok.2 ⟨iv, bv, hi, hb, rfl⟩, targetAddress_comm]

/-- Settles O19: neither field stops the branch, and the sum is the same. -/
theorem exchangingNonZeroRegistersChangesNothing :
    Obligations.ExchangingNonZeroRegistersChangesNothing := by
  unfold Obligations.ExchangingNonZeroRegistersChangesNothing
  intro mask idx base offset s hidx hbase hi hb
  obtain ⟨iv, hiv⟩ := Option.ne_none_iff_exists'.1 hi
  obtain ⟨bv, hbv⟩ := Option.ne_none_iff_exists'.1 hb
  have htarget : formTarget s idx base offset = formTarget s base idx offset :=
    formTarget_comm (registerOperand_of_value hbase hbv) (registerOperand_of_value hidx hiv)
  rw [exec_of_expand rfl, exec_of_expand rfl, branchOnCondition, branchOnCondition,
    branchSelected_of_base_ne_zero s mask hbase, branchSelected_of_base_ne_zero s mask hidx,
    takeBranch, takeBranch, htarget]

/-! ### Which faults there are -/

/-- Settles O25: a memory protect exception, of the fetch or of the branch, is a failed key check. -/
theorem noProtectExceptionWhenOffOrKeyZero : Obligations.NoProtectExceptionWhenOffOrKeyZero := by
  unfold Obligations.NoProtectExceptionWhenOffOrKeyZero
  intro s hs against pc t k q hstep
  have hcheck : ∃ access a l, checkAddresses s access a l = some (.memoryProtectException against pc t k q) := by
    obtain hfetch | ⟨i, hi⟩ := step_fault hstep
    · exact ⟨_, _, _, hfetch⟩
    · obtain ⟨r, hr, _⟩ | ⟨u, hu⟩ := exec_fault hi
      · cases hr
      · exact ⟨_, _, _, hu⟩
  obtain ⟨access, a, l, hc⟩ := hcheck
  obtain ⟨cause, u, hf⟩ | ⟨hprotect, hkey, _⟩ := checkAddresses_eq_some hc
  · cases hf
  · rcases hs with hoff | hzero
    · rw [hoff] at hprotect
      cases hprotect
    · exact hkey hzero

/-- An instruction about to branch whose target cannot be formed faults on the register that holds no value. -/
theorem exec_of_formTarget_error {i : Instr} {s : State} {m : Mask} {idx base : RegNum} {offset : Offset}
    {f : Fault} (hi : expand i = .bc m idx base offset) (hm : m.getLsbD (3 - s.psw.cc.val) = true)
    (hb : base ≠ 0 ∨ s.cfg.base0Mode = .zeroBase) (hf : formTarget s idx base offset = .error f) :
    exec i s = .fault f := by
  rw [exec_of_expand hi, branchOnCondition_of_branchSelected ((branchSelected_iff s m base).2 ⟨hm, hb⟩),
    takeBranch_of_formTarget_error hf]

/-- Settles O26: the registers are read before any check of the target, the base register first. -/
theorem unwrittenRegisterFaultsOnlyWhenBranching :
    Obligations.UnwrittenRegisterFaultsOnlyWhenBranching := by
  unfold Obligations.UnwrittenRegisterFaultsOnlyWhenBranching
  refine fun i mask idx base offset s hi => ⟨fun hm hb hn => ?_, fun hm hserves hb hidx hn => ?_,
    exec_of_not_selected hi⟩
  · exact exec_of_formTarget_error hi hm (.inl hb)
      (formTarget_of_base_error (registerOperand_of_noValue hb (readReg_eq_none.2 hn)))
  · have hbase : ∃ bv, registerOperand s base = .ok bv := by
      by_cases h0 : base = 0
      · exact ⟨0, h0 ▸ registerOperand_zero s⟩
      · exact ⟨_, registerOperand_of_value h0 (readReg_eq_some.2 ⟨hb.resolve_left h0, rfl⟩)⟩
    obtain ⟨bv, hbv⟩ := hbase
    exact exec_of_formTarget_error hi hm hserves
      (formTarget_of_index_error hbv (registerOperand_of_noValue hidx (readReg_eq_none.2 hn)))

end Sys2Proof.Machine
end

section
/-! PROOFS. The mask and the condition code: BC with any mask, the sixteen extended mnemonics and what they
branch on after the instructions that set the condition code (40_branch_on_condition.md R81;
41_extended_mnemonics.md R90 to R107; 10_state.md R29 to R31). -/

namespace Sys2Proof.Machine

/-! ### Mnemonics and their BC -/

/-- A mnemonic supplies its mask and leaves the other fields (41_extended_mnemonics.md R90). -/
theorem expand_instrOf (m : Mnemonic) (idx base : RegNum) (offset : Offset) :
    expand (instrOf m idx base offset) = .bc (.ofNat 4 (maskOf m)) idx base offset := by
  cases m <;> rfl

theorem maskOf_le (m : Mnemonic) : maskOf m ≤ 15 := by
  cases m <;> decide

theorem encode_bc (mask : Mask) (idx base : RegNum) (offset : Offset) :
    encode (.bc mask idx base offset) = encodeFields mask idx base offset := rfl

/-- A mnemonic's word is that of BC with its mask. -/
theorem encode_instrOf (m : Mnemonic) (idx base : RegNum) (offset : Offset) :
    encode (instrOf m idx base offset) = encodeFields (.ofNat 4 (maskOf m)) idx base offset := by
  rw [← encode_expand, expand_instrOf, encode_bc]

/-- BC assembles its operand, if that and the mask are in range. -/
theorem assemble_bc_of_resolveTarget {symbols : Symbols} {target : TargetForm} {op : Operand}
    (h : resolveTarget symbols target = some op) (mask : Nat) :
    assemble symbols (.bc mask target) =
      if mask ≤ 15 ∧ op.wellFormed then
        some (.bc (.ofNat 4 mask) (.ofNat 4 op.idx) (.ofNat 4 op.base) (.ofNat 12 op.offset))
      else none := by
  simp only [assemble, h]

/-- A mnemonic assembles its operand, if that is in range. -/
theorem assemble_ext_of_resolveTarget {symbols : Symbols} {target : TargetForm} {op : Operand}
    (h : resolveTarget symbols target = some op) (m : Mnemonic) :
    assemble symbols (.ext m target) =
      if op.wellFormed then
        some (instrOf m (.ofNat 4 op.idx) (.ofNat 4 op.base) (.ofNat 12 op.offset))
      else none := by
  simp only [assemble, h]

/-- A mnemonic assembles to the bytes of BC with its mask, from the same operands. -/
theorem assembleBytes_ext (symbols : Symbols) (m : Mnemonic) (target : TargetForm) :
    assembleBytes symbols (.ext m target) = assembleBytes symbols (.bc (maskOf m) target) := by
  unfold assembleBytes
  cases h : resolveTarget symbols target with
  | none => simp only [assemble, h]
  | some op =>
    rw [assemble_ext_of_resolveTarget h, assemble_bc_of_resolveTarget h]
    by_cases hop : op.wellFormed = true
    · simp [hop, maskOf_le, encodeBytes, encode_instrOf, encode_bc]
    · simp [hop]

/-- Settles O28: the mnemonic's expansion gives its word and its meaning. -/
theorem extendedMnemonicAssemblesToItsBc : Obligations.ExtendedMnemonicAssemblesToItsBc := by
  unfold Obligations.ExtendedMnemonicAssemblesToItsBc
  refine fun symbols m target => ⟨assembleBytes_ext symbols m target, fun idx base offset => ?_,
    fun idx offset s hs => exec_of_base_zero (expand_instrOf m idx 0 offset) hs⟩
  rw [encode_instrOf, encodeFields_toNat, BitVec.toNat_ofNat,
    Nat.mod_eq_of_lt (Nat.lt_succ_of_le (maskOf_le m))]

/-! ### What a mask branches on -/

/-- Instructions that stand for BC with one mask branch exactly on the codes whose mask bit is 1. -/
theorem branchesExactlyOn_of_mask {make : RegNum → RegNum → Offset → Instr} {sel : CondCode → Prop}
    (mask : Mask) (hmake : ∀ idx base offset, expand (make idx base offset) = .bc mask idx base offset)
    (hsel : ∀ cc : CondCode, mask.getLsbD (3 - cc.val) = true ↔ sel cc) : BranchesExactlyOn make sel :=
  ⟨fun s idx base offset _ hcc ht => exec_of_ready (hmake idx base offset) ((hsel s.psw.cc).2 hcc) ht,
    fun s idx base offset hcc =>
      exec_of_not_selected (hmake idx base offset) (Bool.eq_false_iff.2 (mt (hsel s.psw.cc).1 hcc))⟩

/-- The bit `m[3 - c]` of a mask, by the value of that bit (40_branch_on_condition.md R81). -/
theorem getLsbD_mask_iff (mask : Mask) (cc : CondCode) :
    mask.getLsbD (3 - cc.val) = true ↔ mask.toNat / 2 ^ (3 - cc.val) % 2 = 1 := by
  rw [BitVec.getLsbD, Nat.testBit_eq_decide_div_mod_eq, decide_eq_true_eq]

/-- Settles O15: the bit of the code `cc` is the one of value `2 ^ (3 - cc)`. -/
theorem maskBitSelectsItsConditionCode : Obligations.MaskBitSelectsItsConditionCode := by
  unfold Obligations.MaskBitSelectsItsConditionCode
  refine fun mask => branchesExactlyOn_of_mask mask (fun _ _ _ => rfl) fun cc => ?_
  rw [getLsbD_mask_iff]
  fin_cases cc <;> simp

/-- Settles O29: the rows of the summary table, each mask read bit by bit. -/
theorem extendedMnemonicsBranchOnTheirConditionCodes :
    Obligations.ExtendedMnemonicsBranchOnTheirConditionCodes := by
  unfold Obligations.ExtendedMnemonicsBranchOnTheirConditionCodes
  exact ⟨branchesExactlyOn_of_mask 0 (fun _ _ _ => rfl) (by decide),
    branchesExactlyOn_of_mask 1 (fun _ _ _ => rfl) (by decide),
    branchesExactlyOn_of_mask 2 (fun _ _ _ => rfl) (by decide),
    branchesExactlyOn_of_mask 2 (fun _ _ _ => rfl) (by decide),
    branchesExactlyOn_of_mask 4 (fun _ _ _ => rfl) (by decide),
    branchesExactlyOn_of_mask 4 (fun _ _ _ => rfl) (by decide),
    branchesExactlyOn_of_mask 7 (fun _ _ _ => rfl) (by decide),
    branchesExactlyOn_of_mask 7 (fun _ _ _ => rfl) (by decide),
    branchesExactlyOn_of_mask 8 (fun _ _ _ => rfl) (by decide),
    branchesExactlyOn_of_mask 8 (fun _ _ _ => rfl) (by decide),
    branchesExactlyOn_of_mask 11 (fun _ _ _ => rfl) (by decide),
    branchesExactlyOn_of_mask 11 (fun _ _ _ => rfl) (by decide),
    branchesExactlyOn_of_mask 13 (fun _ _ _ => rfl) (by decide),
    branchesExactlyOn_of_mask 13 (fun _ _ _ => rfl) (by decide),
    branchesExactlyOn_of_mask 14 (fun _ _ _ => rfl) (by decide),
    branchesExactlyOn_of_mask 15 (fun _ _ _ => rfl) (by decide)⟩

/-- Settles O30: the six masks read bit by bit, and the printer's choice for each of the sixteen. -/
theorem unnamedMasksBranchOnTheirConditionCodes : Obligations.UnnamedMasksBranchOnTheirConditionCodes := by
  unfold Obligations.UnnamedMasksBranchOnTheirConditionCodes
  exact ⟨branchesExactlyOn_of_mask 3 (fun _ _ _ => rfl) (by decide),
    branchesExactlyOn_of_mask 5 (fun _ _ _ => rfl) (by decide),
    branchesExactlyOn_of_mask 6 (fun _ _ _ => rfl) (by decide),
    branchesExactlyOn_of_mask 9 (fun _ _ _ => rfl) (by decide),
    branchesExactlyOn_of_mask 10 (fun _ _ _ => rfl) (by decide),
    branchesExactlyOn_of_mask 12 (fun _ _ _ => rfl) (by decide),
    by decide⟩

/-! ### After the instructions that set the condition code -/

/-- In a state where a branch may be taken, instructions that branch exactly on some codes go to the target
if the code is one of them, else to the next instruction. -/
theorem BranchesExactlyOn.exec_eq_ite {make : RegNum → RegNum → Offset → Instr} {sel : CondCode → Prop}
    (h : BranchesExactlyOn make sel) {s : State} {idx base : RegNum} {offset : Offset} {t : Nat}
    (ht : BranchReady s idx base offset t) {p : Prop} [Decidable p] (hp : sel s.psw.cc ↔ p) :
    exec (make idx base offset) s = .next (setPc s (if p then t else nextAddress s)) := by
  split
  · rename_i hpos
    exact h.1 s idx base offset t (hp.2 hpos) ht
  · rename_i hneg
    exact h.2 s idx base offset (mt hp.1 hneg)

/-- The same, for codes described by the outcome on which the branch is not taken. -/
theorem BranchesExactlyOn.exec_eq_ite_not {make : RegNum → RegNum → Offset → Instr} {sel : CondCode → Prop}
    (h : BranchesExactlyOn make sel) {s : State} {idx base : RegNum} {offset : Offset} {t : Nat}
    (ht : BranchReady s idx base offset t) {p : Prop} [Decidable p] (hp : sel s.psw.cc ↔ ¬ p) :
    exec (make idx base offset) s = .next (setPc s (if p then nextAddress s else t)) := by
  rw [← ite_not]
  exact h.exec_eq_ite ht hp

/-- Settles O31: condition code 2 is the one an arithmetic operation leaves for a positive result. -/
theorem bpBranchesExactlyOnAPositiveResult : Obligations.BpBranchesExactlyOnAPositiveResult := by
  unfold Obligations.BpBranchesExactlyOnAPositiveResult
  obtain ⟨-, -, -, hbp, -⟩ := extendedMnemonicsBranchOnTheirConditionCodes
  refine ⟨fun symbols => assembleBytes_ext symbols .bp,
    fun idx base offset => ⟨rfl, extractLsb'_encodeFields_opcode_mask 2 idx base offset⟩, by decide, hbp,
    fun o idx base offset s t hcc ht => hbp.exec_eq_ite ht ?_⟩
  rw [hcc]
  cases o <;> decide

/-- Settles O32: condition code 0 is the one an arithmetic operation leaves for a result of zero. -/
theorem bnzBranchesExactlyOnANonZeroResult : Obligations.BnzBranchesExactlyOnANonZeroResult := by
  unfold Obligations.BnzBranchesExactlyOnANonZeroResult
  obtain ⟨-, -, -, -, -, -, -, hbnz, -⟩ := extendedMnemonicsBranchOnTheirConditionCodes
  refine ⟨fun symbols => assembleBytes_ext symbols .bnz,
    fun idx base offset => ⟨rfl, extractLsb'_encodeFields_opcode_mask 7 idx base offset⟩, by decide, hbnz,
    fun o idx base offset s t hcc ht => hbnz.exec_eq_ite_not ht ?_⟩
  rw [hcc]
  cases o <;> decide

/-- Settles O33: B is BC with mask 15, which selects every condition code. -/
theorem bBranchesAlwaysUnlessBaseIsZero : Obligations.BBranchesAlwaysUnlessBaseIsZero := by
  unfold Obligations.BBranchesAlwaysUnlessBaseIsZero
  exact ⟨fun symbols => assembleBytes_ext symbols .b,
    extractLsb'_encodeFields_opcode_mask 15, by decide,
    fun idx base offset s t ht => exec_of_ready rfl (getLsbD_fifteen _) ht,
    fun idx offset s hs => exec_of_base_zero rfl hs⟩

/-- The code of a comparison says how A compares to B (10_state.md R30). -/
theorem ccAfterComparison_compareOutcome_iff (a b : Int) :
    (ccAfterComparison (compareOutcome a b) = 0 ↔ a = b) ∧
    (ccAfterComparison (compareOutcome a b) = 1 ↔ a < b) ∧
    (ccAfterComparison (compareOutcome a b) = 2 ↔ a > b) ∧
    ccAfterComparison (compareOutcome a b) ≠ 3 := by
  unfold compareOutcome
  split
  · simp [ccAfterComparison]
    omega
  · split
    · simp [ccAfterComparison]
      omega
    · simp [ccAfterComparison]
      omega

/-- Settles O34: a mnemonic's codes are the comparison's outcomes it branches on; overflow's code 3 never
stands after a comparison. -/
theorem comparisonMnemonicsBranchOnTheComparison : Obligations.ComparisonMnemonicsBranchOnTheComparison := by
  unfold Obligations.ComparisonMnemonicsBranchOnTheComparison
  intro a b idx base offset s t hcc ht
  obtain ⟨-, -, hbh, -, hbl, -, hbne, -, hbe, -, hbnl, -, hbnh, -, -, -⟩ :=
    extendedMnemonicsBranchOnTheirConditionCodes
  obtain ⟨hequal, hlow, hhigh, hthree⟩ := ccAfterComparison_compareOutcome_iff a b
  rw [← hcc] at hequal hlow hhigh hthree
  refine ⟨hbh.exec_eq_ite ht hhigh, hbl.exec_eq_ite ht hlow, hbne.exec_eq_ite ht ?_,
    hbe.exec_eq_ite ht hequal, hbnl.exec_eq_ite ht ?_, hbnh.exec_eq_ite ht ?_⟩
  · simp only [hlow, hhigh, hthree, or_false]
    omega
  · simp only [hequal, hhigh, hthree, or_false]
    omega
  · simp only [hequal, hlow, hthree, or_false]
    omega

/-- Settles O35: each of the four outcomes has a code of its own (10_state.md R29). -/
theorem arithmeticMnemonicsBranchOnTheResult : Obligations.ArithmeticMnemonicsBranchOnTheResult := by
  unfold Obligations.ArithmeticMnemonicsBranchOnTheResult
  intro o idx base offset s t hcc ht
  obtain ⟨-, hbo, -, -, -, hbm, -, -, -, hbz, -, hbnm, -, hbnp, hbno, -⟩ :=
    extendedMnemonicsBranchOnTheirConditionCodes
  refine ⟨hbo.exec_eq_ite ht ?_, hbm.exec_eq_ite ht ?_, hbz.exec_eq_ite ht ?_,
    hbnm.exec_eq_ite_not ht ?_, hbnp.exec_eq_ite_not ht ?_, hbno.exec_eq_ite_not ht ?_⟩
  all_goals
    rw [hcc]
    cases o <;> decide

/-- Settles O36: each of the three outcomes has a code of its own (10_state.md R31). -/
theorem testUnderMaskMnemonicsBranchOnTheTest : Obligations.TestUnderMaskMnemonicsBranchOnTheTest := by
  unfold Obligations.TestUnderMaskMnemonicsBranchOnTheTest
  intro o idx base offset s t hcc ht
  obtain ⟨-, hbo, -, -, -, hbm, -, -, -, hbz, -, -, -, -, hbno, -⟩ :=
    extendedMnemonicsBranchOnTheirConditionCodes
  refine ⟨hbo.exec_eq_ite ht ?_, hbm.exec_eq_ite ht ?_, hbz.exec_eq_ite ht ?_,
    hbno.exec_eq_ite_not ht ?_⟩
  all_goals
    rw [hcc]
    cases o <;> decide

end Sys2Proof.Machine
end

section
/-! PROOFS. What every step leaves unchanged, the invariant of the state, and runs (10_state.md R20 to R35;
40_branch_on_condition.md R88; 70_reset_and_hazards.md R151, R156, R157, R160). -/

namespace Sys2Proof.Machine

/-! ### The frame of an instruction and of a step -/

/-- An instruction that completes changes `pc` alone. -/
theorem exec_next_eq_setPc {i : Instr} {s t : State} (h : exec i s = .next t) : t = setPc s t.psw.pc := by
  obtain ⟨m, x, b, o, _, he⟩ := exec_eq_branchOnCondition i s
  rw [he] at h
  obtain ⟨_, rfl⟩ | ⟨_, u, _, _, _, _, rfl⟩ := branchOnCondition_next h
  · rfl
  · rfl

/-- A step that completes changes `pc` alone. -/
theorem step_next_eq_setPc {s t : State} (h : step s = .next t) : t = setPc s t.psw.pc := by
  obtain ⟨w, i, _, _, hexec⟩ := step_next h
  exact exec_next_eq_setPc hexec

/-- Settles O40: every clause is a field of the state with another `pc`. -/
theorem frameOfEveryInstruction : Obligations.FrameOfEveryInstruction := by
  unfold Obligations.FrameOfEveryInstruction
  intro i s t h
  rw [exec_next_eq_setPc h]
  simp

/-- What a completed step did: the BC whose word was fetched went to the next instruction, not about to
branch, or to a target it may branch to (20_memory.md R43; 40_branch_on_condition.md R80). -/
theorem step_next_bc {s t : State} (h : step s = .next t) :
    ∃ mask idx base offset, fetch s = .ok (encode (.bc mask idx base offset)) ∧
      ((branchSelected s mask base = false ∧ t = setPc s (nextAddress s)) ∨
      (branchSelected s mask base = true ∧ ∃ u, formTarget s idx base offset = .ok u ∧ u % 2 = 0 ∧
        validAt s u = true ∧ (s.cfg.protectFetch = true → keyOK s u = true) ∧ t = setPc s u)) := by
  obtain ⟨w, i, hfetch, hdecode, hexec⟩ := step_next h
  obtain ⟨_, hi⟩ := decodeWord_eq_instr_iff.1 hdecode
  rw [← encode_of_decodeWord hdecode, hi] at hfetch
  rw [hi, exec_of_expand rfl] at hexec
  exact ⟨_, _, _, _, hfetch, branchOnCondition_next hexec⟩

/-- Settles O41: the clause that holds is the one of `branchSelected`. -/
theorem stepChangesOnlyTheInstructionAddress : Obligations.StepChangesOnlyTheInstructionAddress := by
  unfold Obligations.StepChangesOnlyTheInstructionAddress
  intro s t h
  obtain ⟨mask, idx, base, offset, hfetch, ⟨hsel, ht⟩ | ⟨hsel, u, hu, heven, hvalid, hkey, ht⟩⟩ :=
    step_next_bc h
  · refine ⟨step_next_eq_setPc h, mask, idx, base, offset, hfetch, ?_⟩
    rw [if_neg (mt (branchSelected_iff s mask base).2 (Bool.eq_false_iff.1 hsel)), ht, setPc_pc]
  · refine ⟨step_next_eq_setPc h, mask, idx, base, offset, hfetch, ?_⟩
    rw [if_pos ((branchSelected_iff s mask base).1 hsel), ht, setPc_pc]
    exact ⟨hu, heven, hvalid, hkey⟩

/-- The next instruction's address is even if `pc` is: the address space is one address or an even number
of them. -/
theorem nextAddress_even {s : State} (h : EvenPc s) : nextAddress s % 2 = 0 := by
  rw [nextAddress, trunc]
  cases s.cfg.addrBits with
  | zero => rw [Nat.pow_zero, Nat.mod_one]
  | succ n =>
    rw [Nat.pow_succ, Nat.mod_mul_left_mod]
    omega

/-- Settles O42: a branch's target has passed the check of evenness, and the fetch has checked `pc`. -/
theorem stepLeavesAnEvenInstructionAddress : Obligations.StepLeavesAnEvenInstructionAddress := by
  unfold Obligations.StepLeavesAnEvenInstructionAddress
  intro s t h
  obtain ⟨_, _, _, _, hfetch, ⟨_, rfl⟩ | ⟨_, u, _, heven, _, _, rfl⟩⟩ := step_next_bc h
  · exact nextAddress_even (fetch_ok_iff.1 hfetch).1
  · exact heven

/-- After a step `pc` is an address. -/
theorem step_next_pc_lt {s t : State} (h : step s = .next t) : t.psw.pc < 2 ^ s.cfg.addrBits := by
  obtain ⟨_, _, _, _, _, ⟨_, rfl⟩ | ⟨_, u, htarget, _, _, _, rfl⟩⟩ := step_next_bc h
  · exact trunc_lt _ _
  · exact formTarget_lt htarget

/-- The invariant asks of `pc` an even address, and nothing else of a state that differs in `pc` alone. -/
theorem State.Inv.setPc {s : State} (h : State.Inv s) {t : Nat} (hlt : t < 2 ^ s.cfg.addrBits)
    (heven : t % 2 = 0) : State.Inv (setPc s t) :=
  { h with pc_lt := hlt, pc_even := heven }

/-- Settles O43: only `pc` moves, to an even address of the address space. -/
theorem stepKeepsTheInvariant : Obligations.StepKeepsTheInvariant := by
  unfold Obligations.StepKeepsTheInvariant
  intro s t hs h
  rw [step_next_eq_setPc h]
  exact hs.setPc (step_next_pc_lt h) (stepLeavesAnEvenInstructionAddress s t h)

/-! ### Reset -/

/-- After reset every register holds the value 0 (log entry 3). -/
theorem regAt_reset (r : RegNum) : regAt State.reset r = 0 := by
  simp [regAt, State.reset]

/-- Settles O44: each field's bound, evaluated. -/
theorem resetMeetsTheInvariant : Obligations.ResetMeetsTheInvariant := by
  unfold Obligations.ResetMeetsTheInvariant
  exact {
    cfg := by decide
    pc_lt := by decide
    pc_even := by decide
    key_lt := by decide
    regs_lt := fun r => by rw [regAt_reset]; exact Nat.two_pow_pos _
    mem_wf := rfl
    mem_lt := nofun
    keys_fit := by decide
    keys_rising := rfl }

/-- Settles O45: the values as `State.reset` and `Config.system360` list them. -/
theorem resetValuesAreTheLoggedOnes : Obligations.ResetValuesAreTheLoggedOnes := by
  unfold Obligations.ResetValuesAreTheLoggedOnes
  refine ⟨fun r => ?_, rfl, fun a => ⟨rfl, rfl, rfl, rfl⟩, rfl, rfl, rfl, rfl, rfl⟩
  rw [readReg_of_noValue_nil rfl, regAt_reset]

/-! ### Runs -/

/-- Settles O46: by induction on the number of steps, each of which changes `pc` alone. -/
theorem runChangesOnlyTheInstructionAddress : Obligations.RunChangesOnlyTheInstructionAddress := by
  unfold Obligations.RunChangesOnlyTheInstructionAddress
  intro n
  induction n with
  | zero =>
    intro s
    rw [runFor]
    split <;> rfl
  | succ n ih =>
    intro s
    rw [runFor]
    split
    · rfl
    · split
      · rename_i t ht
        rw [ih t, step_next_eq_setPc ht]
        rfl
      · rfl
      · rfl

/-- A run that ended successfully stands at an exit address. -/
theorem exitAt_of_runFor_exited {n : Nat} {s u : State} (h : runFor n s = .exited u) :
    exitAt u u.psw.pc = true := by
  induction n generalizing s with
  | zero =>
    unfold runFor at h
    split at h
    · rename_i hx
      cases h
      exact hx
    · cases h
  | succ n ih =>
    unfold runFor at h
    split at h
    · rename_i hx
      cases h
      exact hx
    · split at h
      · exact ih h
      · cases h
      · cases h

/-- Settles O47: the exit check comes before the step. -/
theorem runExitsExactlyAtAnExitAddress : Obligations.RunExitsExactlyAtAnExitAddress := by
  unfold Obligations.RunExitsExactlyAtAnExitAddress
  exact ⟨fun n s hx => runFor_of_exit hx n, fun n s u => exitAt_of_runFor_exited⟩

/-- A run that has ended, in whatever way, has ended so for every greater number of steps
(60_exceptions.md R135; 70_reset_and_hazards.md R156). -/
theorem runFor_add_of_ended {n : Nat} {s : State} (h : ∀ u, runFor n s ≠ .running u) (k : Nat) :
    runFor (n + k) s = runFor n s := by
  induction n generalizing s with
  | zero =>
    cases hx : exitAt s s.psw.pc with
    | true => rw [runFor_of_exit hx, runFor_of_exit hx]
    | false => exact absurd (by simp [runFor, hx]) (h s)
  | succ n ih =>
    rw [Nat.add_right_comm]
    cases hx : exitAt s s.psw.pc with
    | true => rw [runFor_of_exit hx, runFor_of_exit hx]
    | false =>
      cases hstep : step s with
      | next t =>
        rw [runFor_succ_of_next hx hstep] at h
        rw [runFor_succ_of_next hx hstep, runFor_succ_of_next hx hstep, ih h]
      | fault f => rw [runFor_succ_of_fault hx hstep, runFor_succ_of_fault hx hstep]
      | refused r => rw [runFor_succ_of_refused hx hstep, runFor_succ_of_refused hx hstep]

/-- Settles O48: the state of a fault or a refusal is one in which the run stood going on, so no exit. -/
theorem endOfARunIsFinal : Obligations.EndOfARunIsFinal := by
  unfold Obligations.EndOfARunIsFinal
  refine ⟨fun n s u f h => ?_, fun n s u r h => ?_, fun n s u h k => ?_⟩
  · obtain ⟨hstep, j, hj⟩ := runFor_faulted h
    exact ⟨hstep, (runFor_running hj).1, fun k => (runFor_add_of_ended (by simp [h]) k).trans h⟩
  · obtain ⟨hstep, j, hj⟩ := runFor_refused h
    exact ⟨hstep, (runFor_running hj).1, fun k => (runFor_add_of_ended (by simp [h]) k).trans h⟩
  · exact (runFor_add_of_ended (by simp [h]) k).trans h

/-- Settles O49: a fault or a refusal in the shorter run would stand in the longer one. -/
theorem noFaultHoldsOfEveryShorterRun : Obligations.NoFaultHoldsOfEveryShorterRun := by
  unfold Obligations.NoFaultHoldsOfEveryShorterRun
  intro n k s h
  cases hn : runFor n s with
  | exited u => trivial
  | running u => trivial
  | faulted u f => rwa [runFor_add_of_ended (by simp [hn]) k, hn] at h
  | refused u r => rwa [runFor_add_of_ended (by simp [hn]) k, hn] at h

/-- A run whose every step leads back to its state goes on for ever. -/
theorem runFor_of_step_self {s : State} (hx : exitAt s s.psw.pc = false) (h : step s = .next s) (n : Nat) :
    runFor n s = .running s := by
  induction n with
  | zero => simp [runFor, hx]
  | succ n ih => rw [runFor_succ_of_next hx h, ih]

/-- Settles O50: a branch taken to `pc` itself leaves the state as it is. -/
theorem branchToItselfRunsForEver : Obligations.BranchToItselfRunsForEver := by
  unfold Obligations.BranchToItselfRunsForEver
  intro i mask idx base offset s hi hfetch hm hready hx
  refine runFor_of_step_self hx ?_
  rw [step_of_fetch_encode hfetch, exec_of_ready hi hm hready, setPc_self]

/-! ### Registers without a value -/

/-- Every register with a value, in the launch state and so wherever the run goes, is enough for every
branch. -/
theorem regsForBranches_of_allRegsValued {s : State} (h : AllRegsValued s) : RegsForBranches s := by
  intro n u r hrun _
  have hu := runChangesOnlyTheInstructionAddress n s
  rw [hrun, RunResult.state] at hu
  rw [hu, readReg_setPc, readReg_of_noValue_nil h]
  nofun

/-- Settles O27: a step faults on a register only if that holds no value, and gives or takes no value. -/
theorem valuedRegistersNeverFault : Obligations.ValuedRegistersNeverFault := by
  unfold Obligations.ValuedRegistersNeverFault
  refine ⟨fun s hs => ⟨fun r hr => ?_, fun t ht => ?_, regsForBranches_of_allRegsValued hs⟩, rfl⟩
  · have hnone := (step_unwrittenRegister hr).2
    rw [readReg_of_noValue_nil hs] at hnone
    cases hnone
  · rw [step_next_eq_setPc ht]
    exact ⟨hs, readReg_setPc s _⟩

/-- Settles O51: a run faults on a register exactly where the BC next in it reads one without a value; a
run from the state after a step is the rest of the run from before it. -/
theorem regsForBranchesIsNoRegisterFault : Obligations.RegsForBranchesIsNoRegisterFault := by
  unfold Obligations.RegsForBranchesIsNoRegisterFault
  refine fun s => ⟨⟨fun h n u r hrun => ?_, fun h n u r hrun hread hnone => ?_⟩, fun t h hx hstep => ?_⟩
  · obtain ⟨hfault, k, hk⟩ := runFor_faulted hrun
    obtain ⟨hread, hnone⟩ := step_unwrittenRegister hfault
    exact h k u r hk hread hnone
  · obtain ⟨q, hfault⟩ := step_of_readByNextBranch hread hnone
    obtain ⟨hx, hrest⟩ := runFor_running hrun
    exact h (n + 1) u q ((hrest 1).trans (runFor_succ_of_fault hx hfault 0))
  · intro n u r hrun
    exact h (n + 1) u r ((runFor_succ_of_next hx hstep n).trans hrun)

end Sys2Proof.Machine
end

section
/-! PROOFS. The assembler: the text of a statement reads back, every instruction has a statement, and a label
resolved through USING is branched to (30_encoding.md R62, R72 to R76; 70_reset_and_hazards.md R152, R153). -/

namespace Sys2Proof.Machine

/-! ### Labels -/

/-- Every character of a label is a letter or a digit (log entry 8). -/
theorem isAlphanum_of_mem_label {name : List Char} (h : isLabel name = true) {c : Char} (hc : c ∈ name) :
    c.isAlphanum = true := by
  cases name with
  | nil => cases hc
  | cons d ds =>
    simp only [isLabel, Bool.and_eq_true, List.all_eq_true] at h
    rcases List.mem_cons.1 hc with rfl | hc
    · rw [Char.isAlphanum, h.1, Bool.true_or]
    · exact h.2 c hc

/-- A label holds no blank. -/
theorem blank_notMem_label {name : List Char} (h : isLabel name = true) : ' ' ∉ name :=
  fun hc => absurd (isAlphanum_of_mem_label h hc) (by decide)

/-- A label does not begin with `*`. -/
theorem isCommentMark_label {name : List Char} (h : isLabel name = true) : isCommentMark name = false := by
  cases name with
  | nil => rfl
  | cons c cs =>
    rw [isCommentMark_cons, beq_eq_false_iff_ne]
    rintro rfl
    exact absurd (isAlphanum_of_mem_label h List.mem_cons_self) (by decide)

/-- A letter is no digit. -/
theorem digitOf_of_isAlpha {c : Char} (h : c.isAlpha = true) : digitOf c = none := by
  rw [digitOf, if_neg]
  rintro ⟨_, hnine⟩
  simp only [Char.isAlpha, Char.isUpper, Char.isLower, Bool.or_eq_true, Bool.and_eq_true,
    decide_eq_true_eq, Char.le_def, UInt32.le_iff_toNat_le, ge_iff_le] at h hnine
  have hletter : 65 ≤ c.val.toNat := h.elim And.left fun hlower => le_trans (by decide : 65 ≤ 97) hlower.1
  have hdigit : c.val.toNat ≤ 57 := hnine
  omega

/-- A label begins with a letter, so no number is read from it. -/
theorem readNat_label {name : List Char} (h : isLabel name = true) : readNat name = none := by
  cases name with
  | nil => rfl
  | cons c cs =>
    simp only [isLabel, Bool.and_eq_true] at h
    rw [readNat, digitOf_of_isAlpha h.1]

/-! ### Targets -/

/-- A written number holds no blank. -/
theorem blank_notMem_writeNat (n : Nat) : ' ' ∉ writeNat n := by
  intro h
  obtain ⟨d, hd, he⟩ := mem_writeNat n ' ' h
  revert d
  decide

/-- A written target holds no blank (30_encoding.md R72). -/
theorem blank_notMem_writeTarget {target : TargetForm}
    (h : ∀ name, target = .label name → isLabel name = true) : ' ' ∉ writeTarget target := by
  cases target with
  | explicit op => simp [writeTarget, blank_notMem_writeNat]
  | single offset v => simp [writeTarget, blank_notMem_writeNat]
  | label name => exact blank_notMem_label (h name rfl)

/-- A target reads back as it was written (30_encoding.md R72, R73, R76). -/
theorem readTarget_writeTarget {target : TargetForm}
    (h : ∀ name, target = .label name → isLabel name = true) :
    readTarget (writeTarget target) = some target := by
  cases target with
  | explicit op =>
    have hopen := readNat_writeNat op.offset (c := '(') rfl
      (writeNat op.idx ++ ',' :: (writeNat op.base ++ [')']))
    have hcomma := readNat_writeNat op.idx (c := ',') rfl (writeNat op.base ++ [')'])
    have hclose := readNat_writeNat op.base (c := ')') rfl []
    simp [readTarget, writeTarget, readRegisters, hopen, hcomma, hclose]
  | single offset v =>
    have hopen := readNat_writeNat offset (c := '(') rfl (writeNat v ++ [')'])
    have hclose := readNat_writeNat v (c := ')') rfl []
    simp [readTarget, writeTarget, readRegisters, hopen, hclose]
  | label name => simp [readTarget, writeTarget, readNat_label (h name rfl), h name rfl]

/-! ### Statements -/

/-- The word that stands before the operands of a statement (30_encoding.md R72, R75). -/
def operationWord : Statement → List Char
  | .bc _ _ => ['B', 'C']
  | .ext m _ => spelling m

/-- The operands of a statement as written. -/
def operandText : Statement → List Char
  | .bc mask target => writeNat mask ++ [','] ++ writeTarget target
  | .ext _ target => writeTarget target

/-- The target of a statement. -/
def targetOf : Statement → TargetForm
  | .bc _ target => target
  | .ext _ target => target

/-- A statement is written as its word, a blank and its operands. -/
theorem writeStatement_eq (st : Statement) :
    writeStatement st = operationWord st ++ ' ' :: operandText st := by
  cases st <;> simp [writeStatement, operationWord, operandText]

/-- The word of a statement is not empty, holds no blank and does not begin a comment. -/
theorem operationWord_spec (st : Statement) :
    ∃ c cs, operationWord st = c :: cs ∧ ' ' ∉ c :: cs ∧ c ≠ '*' := by
  cases st with
  | bc mask target => exact ⟨'B', ['C'], rfl, by decide, by decide⟩
  | ext m target => cases m <;> exact ⟨_, _, rfl, by decide, by decide⟩

/-- The operands of a statement hold no blank. -/
theorem blank_notMem_operandText {st : Statement}
    (h : ∀ name, targetOf st = .label name → isLabel name = true) : ' ' ∉ operandText st := by
  cases st with
  | bc mask target =>
    have htarget : ' ' ∉ writeTarget target := blank_notMem_writeTarget h
    simp [operandText, blank_notMem_writeNat, htarget]
  | ext m target => exact blank_notMem_writeTarget h

/-- The spelling of a mnemonic is its own, and is not `BC`. -/
theorem mnemonicOf_spelling (m : Mnemonic) : mnemonicOf (spelling m) = some m ∧ spelling m ≠ ['B', 'C'] := by
  cases m <;> decide

/-- A statement reads back from its word and its operands. -/
theorem readStatement_operationWord {st : Statement}
    (h : ∀ name, targetOf st = .label name → isLabel name = true) :
    readStatement (operationWord st) (operandText st) = some st := by
  have hread := readTarget_writeTarget h
  cases st with
  | bc mask target =>
    rw [targetOf] at hread
    have hmask := readNat_writeNat mask (c := ',') rfl (writeTarget target)
    simp [readStatement, operationWord, operandText, hmask, hread]
  | ext m target =>
    rw [targetOf] at hread
    obtain ⟨hm, hbc⟩ := mnemonicOf_spelling m
    simp [readStatement, operationWord, operandText, hm, hbc, hread]

/-! ### Lines -/

/-- Skipping blanks leaves a text without blanks. -/
theorem skipBlanks_of_notMem {cs : List Char} (h : ' ' ∉ cs) : skipBlanks cs = cs := by
  cases cs with
  | nil => rfl
  | cons c cs => exact skipBlanks_cons (fun e => h (by simp [e])) cs

/-- A line of a label, a word and an operand word, parted by a blank each, is the statement these words
read as. -/
theorem readLine_words {label operands cs : List Char} {c : Char} (hlabel : label = [] ∨ isLabel label = true)
    (hword : ' ' ∉ c :: cs) (hc : c ≠ '*') (hoperands : ' ' ∉ operands) :
    readLine (label ++ ' ' :: (c :: cs ++ ' ' :: operands)) =
      (readStatement (c :: cs) operands).map (.statement label) := by
  have hcc : c ≠ ' ' := fun e => hword (by simp [e])
  have hblank : ' ' ∉ label := by
    rcases hlabel with rfl | h
    · exact List.not_mem_nil
    · exact blank_notMem_label h
  have hmark : isCommentMark label = false := by
    rcases hlabel with rfl | h
    · rfl
    · exact isCommentMark_label h
  have hskip : skipBlanks (' ' :: (c :: cs ++ ' ' :: operands)) = c :: cs ++ ' ' :: operands :=
    skipBlanks_cons hcc _
  have hskip' : skipBlanks (' ' :: operands) = operands := skipBlanks_of_notMem hoperands
  have hstar : isCommentMark (c :: cs ++ ' ' :: operands) = false := beq_eq_false_iff_ne.2 hc
  simp only [readLine, readWord_append hblank, hskip, hmark, hstar, Bool.or_self, Bool.false_eq_true,
    if_false, if_pos hlabel, readWord_append hword, hskip', readWord_all hoperands]

/-- Settles O37: the blanks part the line into the words it was written from, and each word reads back. -/
theorem writtenStatementReadsBack : Obligations.WrittenStatementReadsBack := by
  unfold Obligations.WrittenStatementReadsBack
  intro label st hlabel hbc hext
  have htarget : ∀ name, targetOf st = .label name → isLabel name = true := by
    cases st with
    | bc mask target => rintro name rfl; exact hbc mask name rfl
    | ext m target => rintro name rfl; exact hext m name rfl
  obtain ⟨c, cs, hword, hblank, hc⟩ := operationWord_spec st
  have hread := readStatement_operationWord htarget
  rw [hword] at hread
  rw [writeLine, writeStatement_eq, hword, List.append_assoc, List.singleton_append,
    readLine_words hlabel hblank hc (blank_notMem_operandText htarget), hread]
  rfl

/-! ### From a statement to its instruction -/

/-- The fields of an instruction are an operand in range (30_encoding.md R62). -/
theorem wellFormed_fields (idx base : RegNum) (offset : Offset) :
    (Operand.mk offset.toNat idx.toNat base.toNat).wellFormed = true := by
  simp only [Operand.wellFormed, Bool.and_eq_true, decide_eq_true_eq]
  omega

/-- BC is assembled from its fields written out. -/
theorem assemble_bc_fields (symbols : Symbols) (mask : Mask) (idx base : RegNum) (offset : Offset) :
    assemble symbols (.bc mask.toNat (.explicit ⟨offset.toNat, idx.toNat, base.toNat⟩)) =
      some (.bc mask idx base offset) := by
  rw [assemble_bc_of_resolveTarget rfl, if_pos ⟨Nat.le_of_lt_succ mask.isLt, wellFormed_fields _ _ _⟩]
  simp

/-- A mnemonic's instruction is assembled from its fields written out. -/
theorem assemble_ext_fields (symbols : Symbols) (m : Mnemonic) (idx base : RegNum) (offset : Offset) :
    assemble symbols (.ext m (.explicit ⟨offset.toNat, idx.toNat, base.toNat⟩)) =
      some (instrOf m idx base offset) := by
  rw [assemble_ext_of_resolveTarget rfl, if_pos (wellFormed_fields _ _ _)]
  simp

/-- Settles O38: the spelling writes out the instruction's fields, and these are in range. -/
theorem everyInstructionIsAssembledFromItsStatement :
    Obligations.EveryInstructionIsAssembledFromItsStatement := by
  unfold Obligations.EveryInstructionIsAssembledFromItsStatement
  intro symbols i
  cases i with
  | bc mask idx base offset =>
    exact ⟨assemble_bc_fields symbols mask idx base offset,
      Bool.and_eq_true_iff.2 ⟨decide_eq_true (Nat.le_of_lt_succ mask.isLt),
        wellFormed_fields idx base offset⟩⟩
  | _ idx base offset =>
    exact ⟨assemble_ext_fields symbols _ idx base offset, wellFormed_fields idx base offset⟩

/-! ### Labels resolved through USING -/

/-- Settles O39: the label's address is the base register's value and an offset of at most 4095, a sum that
does not wrap. -/
theorem resolvedLabelIsTheBranchTarget : Obligations.ResolvedLabelIsTheBranchTarget := by
  unfold Obligations.ResolvedLabelIsTheBranchTarget
  intro bases address op s hop hlt hbases
  obtain ⟨r, v, hmem, hr, hle, hdist, rfl⟩ := usingOperand_eq_some hop
  have hbase : BitVec.ofNat 4 r.toNat = r := by simp
  have htarget : formTarget s (BitVec.ofNat 4 0) (BitVec.ofNat 4 r.toNat) (BitVec.ofNat 12 (address - v)) =
      .ok address := by
    rw [hbase]
    refine formTarget_ok.2 ⟨v, 0, registerOperand_of_value hr (hbases r v hmem), registerOperand_zero s, ?_⟩
    rw [targetAddress_eq_mod, BitVec.toNat_ofNat, Nat.mod_eq_of_lt (show address - v < 2 ^ 12 by omega),
      Nat.add_zero, Nat.add_sub_cancel' hle, Nat.mod_eq_of_lt hlt]
  refine ⟨?_, fun h0 => hr (BitVec.eq_of_toNat_eq h0), rfl, htarget, fun i mask hi hm heven hvalid hkey => ?_⟩
  · simp only [Operand.wellFormed, Bool.and_eq_true, decide_eq_true_eq]
    omega
  · exact exec_of_ready hi hm ⟨.inl (hbase.symm ▸ hr), htarget, heven, hvalid, hkey⟩

end Sys2Proof.Machine
end
